-- ==== Sys2Proof/Word.lean ====
section
/-! DEFINITION. The word types of the machine (spec/00_scope.md R4). -/

namespace Sys2Proof

/-- Bus, `A`, `B`, `IR`, `OUT`, memory cell, ALU: 8 bits (R4). -/
abbrev Byte := BitVec 8

/-- `PC`, `MAR`, opcode, operand: 4 bits (R4, R15, R16, R45). -/
abbrev Nibble := BitVec 4

/-- The micro-step counter `T`: 3 bits (R18, D13). -/
abbrev MicroStep := BitVec 3

/-- The control word: 16 bits, one signal a bit (R4, R50). -/
abbrev ControlWord := BitVec 16

end Sys2Proof
end

