-- ==== Sys2Proof/Syntax.lean ====
section
/-! DEFINITION. The instructions: one constructor per row of spec/opcode_table.json (spec/30_encoding.md R47). -/

namespace Sys2Proof

/-- An instruction of SAP-1/jb. The operand is the low nibble of the byte: a memory address (`lda`,
`add`, `sub`, `sta`), an immediate (`ldi`) or an absolute target (`jmp`, `jc`, `jz`) (R46). The other
instructions have no operand; the low nibble of their byte is ignored (R48). -/
inductive Instr where
  /-- `0000xxxx` -/
  | nop
  /-- `0001nnnn` -/
  | lda (n : Nibble)
  /-- `0010nnnn` -/
  | add (n : Nibble)
  /-- `0011nnnn` -/
  | sub (n : Nibble)
  /-- `0100nnnn` -/
  | sta (n : Nibble)
  /-- `0101nnnn` -/
  | ldi (n : Nibble)
  /-- `0110nnnn` -/
  | jmp (n : Nibble)
  /-- `0111nnnn` -/
  | jc (n : Nibble)
  /-- `1000nnnn` -/
  | jz (n : Nibble)
  /-- `1001xxxx`, as NOP (R49) -/
  | unused9
  /-- `1010xxxx`, as NOP (R49) -/
  | unusedA
  /-- `1011xxxx`, as NOP (R49) -/
  | unusedB
  /-- `1100xxxx`, as NOP (R49) -/
  | unusedC
  /-- `1101xxxx`, as NOP (R49) -/
  | unusedD
  /-- `1110xxxx` -/
  | out
  /-- `1111xxxx` -/
  | hlt
deriving DecidableEq, Repr

/-- The sixteen signals of the control word, LSB to MSB (R50). Their bit numbers are `Signal.bit`. -/
inductive Signal where
  /-- Halt -/
  | hlt
  /-- Memory-Address-in -/
  | mi
  /-- RAM-out -/
  | ro
  /-- RAM-in -/
  | ri
  /-- Instruction-out (operand nibble) -/
  | io
  /-- Instruction-in -/
  | ii
  /-- A-out -/
  | ao
  /-- A-in -/
  | ai
  /-- ALU-out -/
  | eo
  /-- Subtract -/
  | su
  /-- B-in -/
  | bi
  /-- Output-latch-in -/
  | oi
  /-- PC-enable -/
  | ce
  /-- PC-out -/
  | co
  /-- Jump -/
  | jp
  /-- Flags-in -/
  | fi
deriving DecidableEq, Repr

end Sys2Proof
end

