-- ==== Sys2Proof/Machine/ControlWord.lean ====
section
/-! DEFINITION. The control word: bit layout, asserted signals, well-formedness (spec/30_encoding.md R50, R52). -/

namespace Sys2Proof

/-- The bit of each signal, "bit-exact, LSB to MSB" (R50; pairing of names R51, D2). -/
def Signal.bit : Signal → Nat
  | .hlt => 0
  | .mi => 1
  | .ro => 2
  | .ri => 3
  | .io => 4
  | .ii => 5
  | .ao => 6
  | .ai => 7
  | .eo => 8
  | .su => 9
  | .bi => 10
  | .oi => 11
  | .ce => 12
  | .co => 13
  | .jp => 14
  | .fi => 15

/-- `cw.X` of the spec: signal `x` is asserted in `cw` (00_scope.md section 6.5). -/
def ControlWord.asserts (cw : ControlWord) (x : Signal) : Bool :=
  cw.getLsbD x.bit

/-- `X|Y|…`: "the word is the OR of the asserted bits" (R50). -/
def ControlWord.ofSignals : List Signal → ControlWord
  | [] => 0
  | x :: xs => (1#16 <<< x.bit) ||| ControlWord.ofSignals xs

/-- The driver signals `cw` asserts, among CO, RO, IO, AO, EO (R52). -/
def ControlWord.drivers (cw : ControlWord) : List Signal :=
  [.co, .ro, .io, .ao, .eo].filter (ControlWord.asserts cw)

/-- The bus-latch signals `cw` asserts, among MI, RI, II, AI, BI, OI, JP (R52). -/
def ControlWord.busLatches (cw : ControlWord) : List Signal :=
  [.mi, .ri, .ii, .ai, .bi, .oi, .jp].filter (ControlWord.asserts cw)

/-- R52: at most one driver, and exactly one if any bus latch is asserted. -/
def ControlWord.wellFormed (cw : ControlWord) : Bool :=
  decide (cw.drivers.length ≤ 1) && (cw.busLatches.isEmpty || decide (cw.drivers.length = 1))

end Sys2Proof
end

