-- ==== Sys2Proof/Machine/Flags.lean ====
section
/-! DEFINITION. The ALU and the inputs of the two flag latches (spec/43_alu_flags.md R105 to R111). -/

namespace Sys2Proof.Machine

/-- `AluResult(A, B, su)`: 8-bit wraparound addition or subtraction (R105). -/
def aluResult (a b : Byte) (su : Bool) : Byte :=
  if su then a - b else a + b

/-- `AluCarry(A, B, su)`: the unbounded sum exceeds 8 bits (R106), or a borrow occurred (R107). -/
def aluCarry (a b : Byte) (su : Bool) : Bool :=
  if su then decide (a.toNat < b.toNat) else decide (255 < a.toNat + b.toNat)

/-- `AluZero(A, B, su)`: the wrapped result is zero (R108). -/
def aluZero (a b : Byte) (su : Bool) : Bool :=
  decide (aluResult a b su = 0)

/-- The flag latches are written when ALU-out and Flags-in are both asserted (R109, R111). -/
def latchesFlags (cw : ControlWord) : Bool :=
  cw.asserts .eo && cw.asserts .fi

/-- `CF'` (R109). -/
def nextCarry (cw : ControlWord) (a b : Byte) (cf : Bool) : Bool :=
  if latchesFlags cw then aluCarry a b (cw.asserts .su) else cf

/-- `ZF'` (R109). -/
def nextZero (cw : ControlWord) (a b : Byte) (zf : Bool) : Bool :=
  if latchesFlags cw then aluZero a b (cw.asserts .su) else zf

end Sys2Proof.Machine
end

