-- ==== Sys2Proof/WellFormed.lean ====
section
/-! DEFINITION. Which terms are well formed. -/

namespace Sys2Proof

/-- Every instruction term is well formed: an operand has its field's width by type, "The table is
total" (R47) and "No encoding is illegal and none traps" (R49). The one check of this machine that can
fail is the control word's, `ControlWord.wellFormed` (R52). -/
def Instr.wellFormed (_ : Instr) : Bool := true

/-- A list of control words all of which are well formed: what a ROM table must satisfy (R170). -/
def wellFormedWords (ws : List ControlWord) : Bool := ws.all ControlWord.wellFormed

end Sys2Proof
end

