-- ==== Sys2Proof/Decode.lean ====
section
/-! DEFINITION. The instruction byte: decoder, encoder, the host's table words (spec/30_encoding.md R45 to R49). -/

namespace Sys2Proof

/-- Bits 7:4 (R45). -/
def highNibble (b : Byte) : Nibble := b.extractLsb' 4 4

/-- Bits 3:0 (R45). Also "masked/wrapped into their 4-bit domain" of a bus value (R16, R101). -/
def lowNibble (b : Byte) : Nibble := b.extractLsb' 0 4

/-- `zext_8` of a nibble (00_scope.md section 6.1). -/
def zext8 (n : Nibble) : Byte := n.setWidth 8

/-- `(opcode << 4) | operand` (R45, R55). -/
def joinNibbles (hi lo : Nibble) : Byte := (zext8 hi <<< 4) ||| zext8 lo

/-- The opcode table (R47). `op.toNat` is below 16, so the last arm is exactly opcode 15. -/
def decodeFields (op n : Nibble) : Instr :=
  match op.toNat with
  | 0 => .nop
  | 1 => .lda n
  | 2 => .add n
  | 3 => .sub n
  | 4 => .sta n
  | 5 => .ldi n
  | 6 => .jmp n
  | 7 => .jc n
  | 8 => .jz n
  | 9 => .unused9
  | 10 => .unusedA
  | 11 => .unusedB
  | 12 => .unusedC
  | 13 => .unusedD
  | 14 => .out
  | _ => .hlt

/-- "every one of the 256 byte values decodes to exactly one row" (R47). -/
def decodeByte (b : Byte) : Instr := decodeFields (highNibble b) (lowNibble b)

/-- Why bytes give no instruction. No byte value is one of the reasons (R49). -/
inductive DecodeRejection where
  /-- there is no byte to decode -/
  | noByte
deriving DecidableEq, Repr

/-- The decoder over bytes: one instruction and the bytes after it. "the length of every instruction is
one cell" (R45). -/
def decode : List Byte → Except DecodeRejection (Instr × List Byte)
  | [] => .error .noByte
  | b :: rest => .ok (decodeByte b, rest)

/-- The opcode of each instruction (R47). -/
def Instr.opcode : Instr → Nibble
  | .nop => 0
  | .lda _ => 1
  | .add _ => 2
  | .sub _ => 3
  | .sta _ => 4
  | .ldi _ => 5
  | .jmp _ => 6
  | .jc _ => 7
  | .jz _ => 8
  | .unused9 => 9
  | .unusedA => 10
  | .unusedB => 11
  | .unusedC => 12
  | .unusedD => 13
  | .out => 14
  | .hlt => 15

/-- The operand, where the instruction has one (R46, R48). -/
def Instr.operand? : Instr → Option Nibble
  | .lda n | .add n | .sub n | .sta n | .ldi n | .jmp n | .jc n | .jz n => some n
  | .nop | .unused9 | .unusedA | .unusedB | .unusedC | .unusedD | .out | .hlt => none

/-- The instruction's byte; an ignored low nibble is written zero, as the source writes it (R48, R55). -/
def encodeByte (i : Instr) : Byte := joinNibbles i.opcode (i.operand?.getD 0)

/-- The words of an instruction: one byte (R45). -/
def encode (i : Instr) : List Byte := [encodeByte i]

/-- The byte the host's table numbering gives for a row of `nbits` bits. -/
def tableByte (nbits w : Nat) : Byte := BitVec.ofNat 8 (w % 2 ^ nbits)

/-- What the decoder reads from the instruction whose bits are `w`; more bits than one byte are no
instruction of this machine (R45). -/
def decodeTableWord (nbits w : Nat) : Option Instr :=
  if nbits ≤ 8 then
    match decode [tableByte nbits w] with
    | .ok (i, _) => some i
    | .error _ => none
  else none

end Sys2Proof
end

