-- ==== Sys2Proof/Config.lean ====
section
/-! DEFINITION. What is fixed from outside the machine: the program image (spec/00_scope.md R5). -/

namespace Sys2Proof

/-- `IMAGE`: "a fixed-size ordered sequence of 16 unsigned 8-bit values, index = address" (R166).
The spec gives it no default (R5, D1), so it is an argument of `State.resetWith`. -/
abbrev Image := Vector Byte 16

/-- The byte an address reads as when memory lists nothing for it.
DESIGN CHOICE, log entry 1: R55's "A cell no line mentions holds 0x00". -/
def Config.unlistedByte : Byte := 0x00

/-- The image of which no cell has been given: every cell is the unlisted byte (log entry 1). -/
def Config.blankImage : Image := Vector.replicate 16 Config.unlistedByte

end Sys2Proof
end

