-- ==== Sys2Proof/Machine/State.lean ====
section
/-! DEFINITION. The state of the machine, its reset, and the reasons a step can stop (spec/10_state.md R10, R25). -/

namespace Sys2Proof.Machine

/-- `MEM` as (address, byte) pairs in one canonical form, `Memory.wf` (R11, R32). -/
abbrev Memory := List Host.Cell

/-- "The state of the machine is exactly the following eleven elements. Nothing else persists from one
micro-step to the next." (R10). The bus, the control word and the ALU result are not state (R21, R22,
R114). -/
structure State where
  /-- `MEM[0..15]`, program and data (R11) -/
  mem : Memory
  /-- `A`, ALU left operand (R12) -/
  a : Byte
  /-- `B`, ALU right operand (R13) -/
  b : Byte
  /-- `IR`, the most recently fetched byte (R14) -/
  ir : Byte
  /-- `PC`, address of the next byte to fetch (R15) -/
  pc : Nibble
  /-- `MAR`, the latched memory address (R16) -/
  mar : Nibble
  /-- `CF`, carry latch (R17) -/
  cf : Bool
  /-- `ZF`, zero latch (R17) -/
  zf : Bool
  /-- `T`, micro-step counter (R18) -/
  t : MicroStep
  /-- `HALTED` (R19) -/
  halted : Bool
  /-- `OUT`, output latch; nothing in the machine reads it (R20) -/
  out : Byte
deriving DecidableEq, Repr

/-- "The set of exception causes is empty and there are no cause codes." (R150): no instruction, no
control word and no access raises a fault, so there is no constructor. -/
inductive Fault where
deriving DecidableEq, Repr

/-- Why the model gives a step no meaning. -/
inductive Refusal where
  /-- Raised by an arm of `exec` that has no meaning yet. Safe. No arm does. -/
  | notModelled (mnemonic : String)
  /-- Raised by the transfer stage on a control word with two drivers, or with a bus latch and no driver:
  "this spec gives the micro-step **no meaning**: a model refuses the step" (R87). Safe. The ROM
  holds no such word (R78), so no step of the machine raises it. -/
  | illFormedControlWord (word : ControlWord)
deriving DecidableEq, Repr

/-- The outcome of a meaning or a step. -/
abbrev Result := Host.Outcome State Fault Refusal

/-- The state after reset (R25), with the blank image; with another image, `State.resetWith`. -/
def State.reset : State where
  mem := []
  a := 0x00
  b := 0x00
  ir := 0x00
  pc := 0
  mar := 0
  cf := false
  zf := false
  t := 0
  halted := false
  out := 0x00

end Sys2Proof.Machine
end

