-- ==== Sys2Proof/Machine/Operands.lean ====
section
/-! DEFINITION. The fields of `IR` and the one operand form (spec/10_state.md R14, spec/30_encoding.md R46). -/

namespace Sys2Proof.Machine

/-- `IR[7:4]`, what the decoder reads (R14, R60). -/
def State.opcode (s : State) : Nibble := highNibble s.ir

/-- `IR[3:0]`, what Instruction-out drives (R14, R46). -/
def State.operand (s : State) : Nibble := lowNibble s.ir

/-- Instruction-out: "bus ← (IR & 0x0F) (operand nibble only)"; never sign-extended, scaled or shifted
(R46, R95). Whether the nibble is an address, an immediate or a target is decided by the latch signal
that accompanies IO. -/
def operandOnBus (n : Nibble) : Byte := zext8 n

/-- PC-out: `bus = zext_8(PC)` (R96). -/
def pcOnBus (pc : Nibble) : Byte := zext8 pc

/-- What a 4-bit element latches from the bus: `bus[3:0]` (R88, R101; wrap, not clamp: C3). -/
def addressFromBus (bus : Byte) : Nibble := lowNibble bus

end Sys2Proof.Machine
end

