-- ==== Sys2Proof/Machine/Ops.lean ====
section
/-! DEFINITION. The shared operations: memory, the bus, the latches, one micro-step (spec/20_memory.md,
spec/41_transfer_bus.md, spec/42_pc_stage.md, spec/44_cycle_driver.md R115).

The machine takes no exception and returns from none (R150, R154, R155), so there is no such operation. -/

namespace Sys2Proof.Machine

/-! ### Memory -/

/-- The number of cells, and the modulus of every address (R11, R34). -/
def memorySize : Nat := 16

/-- The byte a list of cells gives an address. -/
def Memory.lookup : Memory → Nat → Byte
  | [], _ => Config.unlistedByte
  | (k, v) :: m, a => if k = a then v else Memory.lookup m a

/-- A list of cells without an address. -/
def Memory.erase (m : Memory) (a : Nat) : Memory := m.filter (fun c => c.1 != a)

/-- A cell put in its place among rising addresses. -/
def Memory.place (a : Nat) (v : Byte) : Memory → Memory
  | [] => [(a, v)]
  | (k, w) :: m => if a < k then (a, v) :: (k, w) :: m else (k, w) :: Memory.place a v m

/-- `MemRead(addr, 1)`: `MEM[addr mod 16]` (R30). -/
def Memory.read (m : Memory) (addr : Nat) : Byte :=
  Memory.lookup m (addr % memorySize)

/-- `MemWrite(addr, 1, v)`: `MEM[addr mod 16] <- v` (R31), in canonical form. -/
def Memory.write (m : Memory) (addr : Nat) (v : Byte) : Memory :=
  if v = Config.unlistedByte then Memory.erase m (addr % memorySize)
  else Memory.place (addr % memorySize) v (Memory.erase m (addr % memorySize))

/-- The canonical form: addresses strictly rising and in 0..15, no entry equal to the unlisted byte. -/
abbrev Memory.wf (m : Memory) : Prop :=
  m.Pairwise (fun c d => c.1 < d.1) ∧ ∀ c ∈ m, c.1 < memorySize ∧ c.2 ≠ Config.unlistedByte

/-- Bytes at rising addresses from `a`, in canonical form. -/
def Memory.ofBytes : Nat → List Byte → Memory
  | _, [] => []
  | a, v :: vs =>
    if v = Config.unlistedByte then Memory.ofBytes (a + 1) vs
    else (a, v) :: Memory.ofBytes (a + 1) vs

/-- "initialized once with the fixed program image", "index = address" (R11, R166). -/
def Memory.ofImage (image : Image) : Memory := Memory.ofBytes 0 image.toList

/-- Reset: "every state element takes the value of R25, in particular `MEM` = `IMAGE`" (R165). -/
def State.resetWith (image : Image) : State :=
  { State.reset with mem := Memory.ofImage image }

/-! ### The bus -/

/-- The bus value of a micro-step (R86), all from the pre-step state; `none` when no driver is asserted:
the bus then "has no value" (R21). `operand` is the nibble Instruction-out drives. -/
def busValue (operand : Nibble) (cw : ControlWord) (s : State) : Option Byte :=
  if cw.asserts .co then some (pcOnBus s.pc)
  else if cw.asserts .ro then some (s.mem.read s.mar.toNat)
  else if cw.asserts .io then some (operandOnBus operand)
  else if cw.asserts .ao then some s.a
  else if cw.asserts .eo then some (aluResult s.a s.b (cw.asserts .su))
  else none

/-! ### The latches -/

/-- What an element holds after the micro-step: `f bus` if its latch signal is asserted, else what it
held. A latch with no bus value is never reached: such a word is refused (R87). -/
def latched {α : Type} (signal : Bool) (bus : Option Byte) (old : α) (f : Byte → α) : α :=
  if signal then bus.elim old f else old

/-- `PC'`: Jump wins over PC-enable (R100 to R103). -/
def nextPc (cw : ControlWord) (bus : Option Byte) (pc : Nibble) : Nibble :=
  if cw.asserts .jp then bus.elim pc addressFromBus
  else if cw.asserts .ce then pc + 1
  else pc

/-- `T'` (R63). -/
def nextMicroStep (last : Bool) (t : MicroStep) : MicroStep :=
  if last then 0 else t + 1

/-- The latch part of a micro-step: every write reads only the bus and the pre-step state, and all take
effect together (R85, R115 part 4, R116). -/
def latch (cw : ControlWord) (bus : Option Byte) (last : Bool) (s : State) : State where
  mem := latched (cw.asserts .ri) bus s.mem (s.mem.write s.mar.toNat)
  a := latched (cw.asserts .ai) bus s.a id
  b := latched (cw.asserts .bi) bus s.b id
  ir := latched (cw.asserts .ii) bus s.ir id
  pc := nextPc cw bus s.pc
  mar := latched (cw.asserts .mi) bus s.mar addressFromBus
  cf := nextCarry cw s.a s.b s.cf
  zf := nextZero cw s.a s.b s.zf
  t := nextMicroStep last s.t
  halted := s.halted || cw.asserts .hlt
  out := latched (cw.asserts .oi) bus s.out id

/-! ### One micro-step under a control word -/

/-- What the decoder answers: the control word and whether this is the instruction's last step (R60). -/
structure MicroOp where
  word : ControlWord
  last : Bool
deriving DecidableEq, Repr

/-- One micro-step under the word of `m` (R115 parts 2 to 4): an ill-formed word has no meaning and is
refused (R87); a well-formed one drives, then latches. -/
def microStep (operand : Nibble) (m : MicroOp) (s : State) : Result :=
  if m.word.wellFormed then .next (latch m.word (busValue operand m.word s) m.last s)
  else .refused (.illFormedControlWord m.word)

/-- The transfer stage taken alone, on any word, with the operand nibble of `IR` (R85 to R99). -/
def transfer (m : MicroOp) (s : State) : Result := microStep s.operand m s

end Sys2Proof.Machine
end

