-- ==== Sys2Proof/Machine/Microcode.lean ====
section
/-! DEFINITION. The microcode ROM, row by row (spec/40_microcode_decoder.md R60 to R79). -/

namespace Sys2Proof.Machine

/-- A step after which the counter goes on. -/
def MicroOp.mid (signals : List Signal) : MicroOp := ⟨ControlWord.ofSignals signals, false⟩

/-- An instruction's last step (R63). -/
def MicroOp.final (signals : List Signal) : MicroOp := ⟨ControlWord.ofSignals signals, true⟩

/-- Fetch step 0: CO|MI (R61). -/
def fetchStep0 : MicroOp := .mid [.co, .mi]

/-- Fetch step 1: RO|II|CE (R62). -/
def fetchStep1 : MicroOp := .mid [.ro, .ii, .ce]

/-- Beyond an opcode's last step: no signal, and the counter returns to 0 (R77, D13). -/
def beyondLast : MicroOp := .final []

/-- A row of the table R64: the fetch steps every opcode shares, then the row's own steps 2, 3, 4. -/
def romRow (step2 step3 step4 : MicroOp) (t : MicroStep) : MicroOp :=
  if t = 0 then fetchStep0
  else if t = 1 then fetchStep1
  else if t = 2 then step2
  else if t = 3 then step3
  else if t = 4 then step4
  else beyondLast

/-- NOP (R65). -/
def nopRow : MicroStep → MicroOp := romRow (.final []) beyondLast beyondLast

/-- LDA (R66). -/
def ldaRow : MicroStep → MicroOp := romRow (.mid [.io, .mi]) (.final [.ro, .ai]) beyondLast

/-- ADD (R67). -/
def addRow : MicroStep → MicroOp :=
  romRow (.mid [.io, .mi]) (.mid [.ro, .bi]) (.final [.eo, .ai, .fi])

/-- SUB: the difference goes to `B` (R68, D20). -/
def subRow : MicroStep → MicroOp :=
  romRow (.mid [.io, .mi]) (.mid [.ro, .bi]) (.final [.eo, .bi, .fi, .su])

/-- STA (R69). -/
def staRow : MicroStep → MicroOp := romRow (.mid [.io, .mi]) (.final [.ao, .ri]) beyondLast

/-- LDI (R70). -/
def ldiRow : MicroStep → MicroOp := romRow (.final [.io, .ai]) beyondLast beyondLast

/-- JMP (R71). -/
def jmpRow : MicroStep → MicroOp := romRow (.final [.io, .jp]) beyondLast beyondLast

/-- JC: the jump word only if the carry flag is set, else no signal (R72). -/
def jcRow (cf : Bool) : MicroStep → MicroOp :=
  romRow (if cf then .final [.io, .jp] else .final []) beyondLast beyondLast

/-- JZ: the jump word only if the zero flag is set, else no signal (R73). -/
def jzRow (zf : Bool) : MicroStep → MicroOp :=
  romRow (if zf then .final [.io, .jp] else .final []) beyondLast beyondLast

/-- Opcodes 9 to 13: no signal, as NOP (R74). -/
def unusedRow : MicroStep → MicroOp := romRow (.final []) beyondLast beyondLast

/-- OUT (R75). -/
def outRow : MicroStep → MicroOp := romRow (.final [.ao, .oi]) beyondLast beyondLast

/-- HLT (R76). -/
def hltRow : MicroStep → MicroOp := romRow (.final [.hlt]) beyondLast beyondLast

/-- `Decode : (op, t, cf, zf) -> (cw, last)` (R60), the whole table R64. `op.toNat` is below 16, so the
last arm is exactly opcode 15. -/
def rom (op : Nibble) (t : MicroStep) (cf zf : Bool) : MicroOp :=
  match op.toNat with
  | 0 => nopRow t
  | 1 => ldaRow t
  | 2 => addRow t
  | 3 => subRow t
  | 4 => staRow t
  | 5 => ldiRow t
  | 6 => jmpRow t
  | 7 => jcRow cf t
  | 8 => jzRow zf t
  | 9 => unusedRow t
  | 10 => unusedRow t
  | 11 => unusedRow t
  | 12 => unusedRow t
  | 13 => unusedRow t
  | 14 => outRow t
  | _ => hltRow t

/-- The state two fetch micro-steps leave when `byte` stands in the cell `PC` selects (R125): the byte is
stored there and in `IR`, `MAR` holds its address, `PC` the next, `T` is 2; a halted machine is running
again. -/
def State.fetched (s : State) (byte : Byte) : State :=
  { s with
    mem := s.mem.write s.pc.toNat byte
    ir := byte
    mar := s.pc
    pc := s.pc + 1
    t := 2
    halted := false }

/-- What the decoder gives in a state: it reads `IR[7:4]`, `T`, `CF`, `ZF` and nothing else (R60). -/
def State.microOp (s : State) : MicroOp := rom s.opcode s.t s.cf s.zf

end Sys2Proof.Machine
end

