-- ==== Sys2Proof/Machine/Arithmetic.lean ====
section
/-! DEFINITION. The arithmetic instructions (spec/46_instr_arithmetic.md R135 to R137). -/

namespace Sys2Proof.Machine

/-- ADD n (R67, R135): `MAR <- n`, `B <- MEM[MAR]`, then `A <- A + B` with both flags. -/
def execAdd (n : Nibble) (s : State) : Result := microStep n (addRow s.t) s

/-- SUB n (R68, R136): `MAR <- n`, `B <- MEM[MAR]`, then `B <- A - B` with both flags; `A` unchanged. -/
def execSub (n : Nibble) (s : State) : Result := microStep n (subRow s.t) s

end Sys2Proof.Machine
end

