-- ==== Sys2Proof/Machine/Control.lean ====
section
/-! DEFINITION. The control instructions and the unused opcodes (spec/47_instr_control.md R140 to R145). -/

namespace Sys2Proof.Machine

/-- JMP n (R71, R140): `PC <- n`. -/
def execJmp (n : Nibble) (s : State) : Result := microStep n (jmpRow s.t) s

/-- JC n (R72, R141): `PC <- n` if `CF` is set at decode time, else nothing. -/
def execJc (n : Nibble) (s : State) : Result := microStep n (jcRow s.cf s.t) s

/-- JZ n (R73, R142): `PC <- n` if `ZF` is set at decode time, else nothing. -/
def execJz (n : Nibble) (s : State) : Result := microStep n (jzRow s.zf s.t) s

/-- HLT (R76, R120, R143): `HALTED <- 1`. -/
def execHlt (s : State) : Result := microStep s.operand (hltRow s.t) s

/-- Opcode 9 (R74, R144): "exactly NOP's". -/
def execUnused9 (s : State) : Result := microStep s.operand (unusedRow s.t) s

/-- Opcode 10 (R74, R144): "exactly NOP's". -/
def execUnusedA (s : State) : Result := microStep s.operand (unusedRow s.t) s

/-- Opcode 11 (R74, R144): "exactly NOP's". -/
def execUnusedB (s : State) : Result := microStep s.operand (unusedRow s.t) s

/-- Opcode 12 (R74, R144): "exactly NOP's". -/
def execUnusedC (s : State) : Result := microStep s.operand (unusedRow s.t) s

/-- Opcode 13 (R74, R144): "exactly NOP's". -/
def execUnusedD (s : State) : Result := microStep s.operand (unusedRow s.t) s

end Sys2Proof.Machine
end

