-- ==== Sys2Proof/Machine/DataMovement.lean ====
section
/-! DEFINITION. The data-movement instructions (spec/45_instr_data_movement.md R125 to R130).

The meaning of an instruction is its row of the ROM: the micro-step that the counter `T` selects. Steps 0
and 1 are the fetch every row shares (R61, R62, R125); the others are the instruction's own. -/

namespace Sys2Proof.Machine

/-- NOP (R65, R126): no signal. -/
def execNop (s : State) : Result := microStep s.operand (nopRow s.t) s

/-- LDA n (R66, R127): `MAR <- n`, then `A <- MEM[MAR]`. -/
def execLda (n : Nibble) (s : State) : Result := microStep n (ldaRow s.t) s

/-- STA n (R69, R128): `MAR <- n`, then `MEM[MAR] <- A`. -/
def execSta (n : Nibble) (s : State) : Result := microStep n (staRow s.t) s

/-- LDI n (R70, R129): `A <- zext_8(n)`. -/
def execLdi (n : Nibble) (s : State) : Result := microStep n (ldiRow s.t) s

/-- OUT (R75, R130): `OUT <- A`. -/
def execOut (s : State) : Result := microStep s.operand (outRow s.t) s

end Sys2Proof.Machine
end

