-- ==== Sys2Proof/Machine/Dispatch.lean ====
section
/-! DEFINITION. `exec`: the micro-step of an instruction that the counter `T` selects, one arm per
instruction (spec/40_microcode_decoder.md R64). -/

namespace Sys2Proof.Machine

/-- One micro-step of instruction `i`: the one at position `T` of its row (R64, R115). -/
def exec (i : Instr) (s : State) : Host.Outcome State Fault Refusal :=
  match i with
  | .nop => Sys2Proof.Machine.execNop s
  | .lda n => Sys2Proof.Machine.execLda n s
  | .add n => Sys2Proof.Machine.execAdd n s
  | .sub n => Sys2Proof.Machine.execSub n s
  | .sta n => Sys2Proof.Machine.execSta n s
  | .ldi n => Sys2Proof.Machine.execLdi n s
  | .jmp n => Sys2Proof.Machine.execJmp n s
  | .jc n => Sys2Proof.Machine.execJc n s
  | .jz n => Sys2Proof.Machine.execJz n s
  | .unused9 => Sys2Proof.Machine.execUnused9 s
  | .unusedA => Sys2Proof.Machine.execUnusedA s
  | .unusedB => Sys2Proof.Machine.execUnusedB s
  | .unusedC => Sys2Proof.Machine.execUnusedC s
  | .unusedD => Sys2Proof.Machine.execUnusedD s
  | .out => Sys2Proof.Machine.execOut s
  | .hlt => Sys2Proof.Machine.execHlt s

end Sys2Proof.Machine
end

