-- ==== Sys2Proof/Machine/Step.lean ====
section
/-! DEFINITION. The step of the machine: one micro-step (spec/44_cycle_driver.md R115, R117). -/

namespace Sys2Proof.Machine

/-- One micro-step, "one atomic clock pulse" (R115, R175). Halted: "returns the state unchanged" (R117).
Otherwise the micro-step that `T` selects in the row of `IR[7:4]`; in the fetch steps `IR` still holds
the previous instruction's byte and every row is the same (R61, R62). -/
def step (s : State) : Host.Outcome State Fault Refusal :=
  if s.halted then .next s else exec (decodeByte s.ir) s

/-- `s` with the instruction whose bits are `w` loaded and fetched, so that the very next `step` runs it:
the byte is stored in the cell `PC` selects and the two fetch micro-steps are done (log entry 3). -/
def State.withFetchWord (s : State) (nbits w : Nat) : State :=
  s.fetched (tableByte nbits w)

end Sys2Proof.Machine
end

