-- ==== Sys2Proof/Machine/HostInterface.lean ====
section
/-! DEFINITION. What the host sees and does: the observation of a micro-step, the clock and reset inputs
(spec/44_cycle_driver.md R118, R119, spec/70_reset_and_hazards.md R165). -/

namespace Sys2Proof.Machine

/-- `Obs`: what a micro-step reports that is not state (R118). -/
structure Obs where
  /-- the control word of the micro-step -/
  word : ControlWord
  /-- the bus value, absent when no driver was asserted -/
  bus : Option Byte
  /-- the ALU result, present only when EO was asserted (R114) -/
  alu : Option Byte
  /-- the halt indicator, `HALTED'` -/
  halted : Bool
deriving DecidableEq, Repr

/-- The observation of a micro-step under the word `cw` (R115 part 5). -/
def observeWord (cw : ControlWord) (s : State) : Obs where
  word := cw
  bus := busValue s.operand cw s
  alu := if cw.asserts .eo then some (aluResult s.a s.b (cw.asserts .su)) else none
  halted := s.halted || cw.asserts .hlt

/-- What the micro-step from `s` reports (R115, R117). It is a function of the state, so reading it
mutates nothing (R118). -/
def observe (s : State) : Obs :=
  if s.halted then { word := 0x0000, bus := none, alu := none, halted := true }
  else observeWord s.microOp.word s

/-- The machine's inputs at one moment: a clock pulse, and reset with the image it loads (R119, D16). -/
structure Inputs where
  clock : Bool
  reset : Option Image
deriving DecidableEq, Repr

/-- What the inputs do: reset loads the image and "wins and no micro-step is performed"; a clock pulse is
one micro-step; neither does nothing (R165, R119). -/
def pulse (i : Inputs) (s : State) : Result :=
  match i.reset with
  | some image => .next (State.resetWith image)
  | none => if i.clock then step s else .next s

end Sys2Proof.Machine
end

