-- ==== Sys2Proof/Machine/Run.lean ====
section
/-! DEFINITION. Sequences of micro-steps: runs and instructions (spec/44_cycle_driver.md R121, R122). -/

namespace Sys2Proof.Machine

/-- `k` micro-steps, stopping at a fault or a refusal. After halt they change nothing, so a run that
halts within `k` micro-steps ends in its halted state (R117, R122). -/
def run : Nat → State → Result
  | 0, s => .next s
  | k + 1, s =>
    match step s with
    | .next s' => run k s'
    | .fault f => .fault f
    | .refused r => .refused r

/-- Micro-steps up to the next instruction boundary, `T` = 0, at most `k` (R121). -/
def runToBoundary : Nat → State → Result
  | 0, s => .next s
  | k + 1, s =>
    match step s with
    | .next s' => if s'.t = 0 then .next s' else runToBoundary k s'
    | .fault f => .fault f
    | .refused r => .refused r

/-- One instruction: the micro-steps "up to and including the next micro-step with `last` = 1" (R121). No
instruction has more than five (R63), and from any value of the 3-bit `T` no more than five are needed. -/
def instruction (s : State) : Result := runToBoundary 5 s

end Sys2Proof.Machine
end

