-- ==== Sys2Proof/Safety.lean ====
section
/-! DEFINITION. The invariants of the machine and what a safe run is (spec/10_state.md R27). -/

namespace Sys2Proof.Machine

/-- An instruction boundary of a running machine: "exactly the states with `T` = 0" (R121). -/
abbrev State.AtBoundary (s : State) : Prop := s.halted = false ∧ s.t = 0

/-- The invariant R27 gives for "every state reachable from reset". -/
abbrev State.Inv (s : State) : Prop :=
  s.pc.toNat ≤ 15 ∧ s.mar.toNat ≤ 15 ∧ s.t.toNat ≤ 4 ∧
  (s.t = 3 → s.opcode = 1 ∨ s.opcode = 2 ∨ s.opcode = 3 ∨ s.opcode = 4) ∧
  (s.t = 4 → s.opcode = 2 ∨ s.opcode = 3) ∧
  (s.halted = true → s.opcode = 15 ∧ s.t = 0)

/-- Where the fetch stands: `MAR` has `PC` before fetch step 1; after it `PC` is one further (mod 16) and
`IR` is the byte `MAR` selects, and a halted machine is still there (R104, R122, R125). -/
abbrev State.FetchInv (s : State) : Prop :=
  (s.t = 1 → s.mar = s.pc) ∧
  (s.t = 2 ∨ s.halted = true → s.pc = s.mar + 1 ∧ s.ir = s.mem.read s.mar.toNat)

/-- `s` is reached from a reset with some image. -/
def State.Reachable (s : State) : Prop :=
  ∃ image k, run k (State.resetWith image) = .next s

/-- A safe run: none of `k` micro-steps faults or is refused. -/
def SafeRun (k : Nat) (s : State) : Prop := ∃ s', run k s = .next s'

end Sys2Proof.Machine
end

