-- ==== Sys2Proof/Certificates/Slice0/Obligations.lean ====
section
/-! DEFINITION. The statements about the model, one `def Obligations.<Name> : Prop` each. -/

open Sys2Proof Sys2Proof.Machine

/-! ### Encoding -/

/-- Every instruction, with every operand, is read back from its own byte, whatever bytes follow
(30_encoding.md section 1 and 2). -/
def Obligations.DecodeOfEncodeIsTheInstruction : Prop :=
  ∀ (i : Instr) (rest : List Byte),
    decodeByte (encodeByte i) = i ∧ decode (encode i ++ rest) = .ok (i, rest)

/-- The match and mask columns of the opcode table (R47), and the byte each of the sixteen instructions is
encoded to. That an ignored low nibble is written zero is the model's choice for the unused opcodes (log
entry 13); the spec writes NOP, OUT and HLT so (R48, R55). -/
def Obligations.OpcodeTableMatchAndMask : Prop :=
  (∀ b : Byte,
    (b &&& 0xF0 = 0x00 → decodeByte b = .nop) ∧
    (b &&& 0xF0 = 0x10 → decodeByte b = .lda (b.setWidth 4)) ∧
    (b &&& 0xF0 = 0x20 → decodeByte b = .add (b.setWidth 4)) ∧
    (b &&& 0xF0 = 0x30 → decodeByte b = .sub (b.setWidth 4)) ∧
    (b &&& 0xF0 = 0x40 → decodeByte b = .sta (b.setWidth 4)) ∧
    (b &&& 0xF0 = 0x50 → decodeByte b = .ldi (b.setWidth 4)) ∧
    (b &&& 0xF0 = 0x60 → decodeByte b = .jmp (b.setWidth 4)) ∧
    (b &&& 0xF0 = 0x70 → decodeByte b = .jc (b.setWidth 4)) ∧
    (b &&& 0xF0 = 0x80 → decodeByte b = .jz (b.setWidth 4)) ∧
    (b &&& 0xF0 = 0x90 → decodeByte b = .unused9) ∧
    (b &&& 0xF0 = 0xA0 → decodeByte b = .unusedA) ∧
    (b &&& 0xF0 = 0xB0 → decodeByte b = .unusedB) ∧
    (b &&& 0xF0 = 0xC0 → decodeByte b = .unusedC) ∧
    (b &&& 0xF0 = 0xD0 → decodeByte b = .unusedD) ∧
    (b &&& 0xF0 = 0xE0 → decodeByte b = .out) ∧
    (b &&& 0xF0 = 0xF0 → decodeByte b = .hlt)) ∧
  (∀ n : Nibble,
    encodeByte (.lda n) = 0x10 ||| n.setWidth 8 ∧ encodeByte (.add n) = 0x20 ||| n.setWidth 8 ∧
    encodeByte (.sub n) = 0x30 ||| n.setWidth 8 ∧ encodeByte (.sta n) = 0x40 ||| n.setWidth 8 ∧
    encodeByte (.ldi n) = 0x50 ||| n.setWidth 8 ∧ encodeByte (.jmp n) = 0x60 ||| n.setWidth 8 ∧
    encodeByte (.jc n) = 0x70 ||| n.setWidth 8 ∧ encodeByte (.jz n) = 0x80 ||| n.setWidth 8) ∧
  encodeByte .nop = 0x00 ∧ encodeByte .unused9 = 0x90 ∧ encodeByte .unusedA = 0xA0 ∧
  encodeByte .unusedB = 0xB0 ∧ encodeByte .unusedC = 0xC0 ∧ encodeByte .unusedD = 0xD0 ∧
  encodeByte .out = 0xE0 ∧ encodeByte .hlt = 0xF0

/-- R48 (an inference of the spec from R46 and R64): where the opcode takes no operand the sixteen low
nibbles decode alike, and a micro-step leaves the same state but for `IR` itself. -/
def Obligations.IgnoredLowNibbleReachesNothing : Prop :=
  ∀ (op n n' : Nibble) (s : State), (op = 0 ∨ 9 ≤ op.toNat) →
    decodeByte (joinNibbles op n) = decodeByte (joinNibbles op n') ∧
    ∃ t t', step { s with ir := joinNibbles op n } = .next t ∧
      step { s with ir := joinNibbles op n' } = .next t' ∧
      { t with ir := 0 } = { t' with ir := 0 }

/-- Words written out from the table R47. -/
def Obligations.WordsDecodeAsTheTableSays : Prop :=
  decode [0b00000000#8] = .ok (.nop, []) ∧ decode [0b00011110#8] = .ok (.lda 14, []) ∧
  decode [0b00101111#8] = .ok (.add 15, []) ∧ decode [0b01001101#8] = .ok (.sta 13, []) ∧
  decode [0b01110101#8] = .ok (.jc 5, []) ∧ decode [0b10011010#8] = .ok (.unused9, []) ∧
  decode [0b11110000#8] = .ok (.hlt, [])

/-! ### The step and the fetch -/

/-- A running machine's micro-step is `exec` of the instruction in `IR`; and from an instruction boundary
at which the byte `PC` selects decodes to `i`, the third micro-step is `exec i` at the state the two
fetch micro-steps leave: byte in `IR`, its address in `MAR`, `PC` one further (mod 16), `T` = 2. -/
def Obligations.StepRunsTheDecodedInstruction : Prop :=
  (∀ s : State, s.halted = false → step s = exec (decodeByte s.ir) s) ∧
  (∀ (s : State) (i : Instr), s.AtBoundary → decode [s.mem.read s.pc.toNat] = .ok (i, []) →
    run 3 s = exec i { s with mar := s.pc, ir := s.mem.read s.pc.toNat, pc := s.pc + 1, t := 2 })

/-- Fetch step 0 (R61), for every instruction and every flag value: word CO|MI 0x2002, not last,
`bus = zext_8(PC)`, `MAR' = PC`; nothing else changes but `T`. -/
def Obligations.FetchStepZero : Prop :=
  (∀ (op : Nibble) (cf zf : Bool), rom op 0 cf zf = ⟨0x2002, false⟩) ∧
  (∀ (i : Instr) (s : State), s.t = 0 → exec i s = .next { s with mar := s.pc, t := 1 }) ∧
  (∀ s : State, s.halted = false → s.t = 0 →
    (observe s).bus = some (s.pc.setWidth 8) ∧ step s = .next { s with mar := s.pc, t := 1 })

/-- Fetch step 1 (R62), for every instruction and every flag value: word RO|II|CE 0x1024, not last,
`bus = MEM[MAR]`, `IR' = bus`, `PC' = (PC + 1) mod 16`; and after the two fetch steps `IR >> 4` is the
opcode stored at the old `PC` and `PC` is the old `PC` + 1 (mod 16). -/
def Obligations.FetchStepOne : Prop :=
  (∀ (op : Nibble) (cf zf : Bool), rom op 1 cf zf = ⟨0x1024, false⟩) ∧
  (∀ (i : Instr) (s : State), s.t = 1 →
    exec i s = .next { s with
      ir := s.mem.read s.mar.toNat, pc := BitVec.ofNat 4 ((s.pc.toNat + 1) % 16), t := 2 }) ∧
  (∀ s : State, s.halted = false → s.t = 1 →
    (observe s).bus = some (s.mem.read s.mar.toNat) ∧
    step s = .next { s with
      ir := s.mem.read s.mar.toNat, pc := BitVec.ofNat 4 ((s.pc.toNat + 1) % 16), t := 2 }) ∧
  (∀ s : State, s.AtBoundary → ∃ s', run 2 s = .next s' ∧
    s'.opcode.toNat = (s.mem.read s.pc.toNat).toNat / 16 ∧ s'.pc.toNat = (s.pc.toNat + 1) % 16)

/-- The fetch common to all sixteen opcodes, whole (45_instr_data_movement.md section 1). -/
def Obligations.FetchOfEveryInstruction : Prop :=
  ∀ s : State, s.AtBoundary →
    run 2 s = .next { s with mar := s.pc, ir := s.mem.read s.pc.toNat, pc := s.pc + 1, t := 2 }

/-! ### One statement per ROM row: the control words, and what `exec` answers at each execute step

The numeric words rest on the pairing of mnemonics with signals in R50 and R51 (log entry 7). -/

/-- NOP, step 2 (R65). -/
def Obligations.NopRow : Prop :=
  (∀ cf zf, rom 0 2 cf zf = ⟨0x0000, true⟩) ∧
  (∀ s : State, s.t = 2 → exec .nop s = .next { s with t := 0 }) ∧
  (∀ s : State, s.halted = false → s.opcode = 0 → s.t = 2 →
    (observe s).bus = none ∧ step s = .next { s with t := 0 })

/-- LDA, steps 2 and 3 (R66). -/
def Obligations.LdaRow : Prop :=
  (∀ cf zf, rom 1 2 cf zf = ⟨0x0012, false⟩ ∧ rom 1 3 cf zf = ⟨0x0084, true⟩) ∧
  (∀ (n : Nibble) (s : State), s.t = 2 → exec (.lda n) s = .next { s with mar := n, t := 3 }) ∧
  (∀ (n : Nibble) (s : State), s.t = 3 →
    exec (.lda n) s = .next { s with a := s.mem.read s.mar.toNat, t := 0 }) ∧
  (∀ s : State, s.halted = false → s.opcode = 1 → s.t = 2 →
    (observe s).bus = some (s.ir &&& 0x0F) ∧ step s = .next { s with mar := s.operand, t := 3 }) ∧
  (∀ s : State, s.halted = false → s.opcode = 1 → s.t = 3 →
    (observe s).bus = some (s.mem.read s.mar.toNat) ∧
    step s = .next { s with a := s.mem.read s.mar.toNat, t := 0 })

/-- ADD, steps 2 to 4 (R67): the sum to `A`, both flags from the same addition. -/
def Obligations.AddRow : Prop :=
  (∀ cf zf, rom 2 2 cf zf = ⟨0x0012, false⟩ ∧ rom 2 3 cf zf = ⟨0x0404, false⟩ ∧
    rom 2 4 cf zf = ⟨0x8180, true⟩) ∧
  (∀ (n : Nibble) (s : State), s.t = 2 → exec (.add n) s = .next { s with mar := n, t := 3 }) ∧
  (∀ (n : Nibble) (s : State), s.t = 3 →
    exec (.add n) s = .next { s with b := s.mem.read s.mar.toNat, t := 4 }) ∧
  (∀ (n : Nibble) (s : State), s.t = 4 →
    exec (.add n) s = .next { s with
      a := BitVec.ofNat 8 (s.a.toNat + s.b.toNat)
      cf := decide (s.a.toNat + s.b.toNat > 255)
      zf := decide ((s.a.toNat + s.b.toNat) % 256 = 0)
      t := 0 }) ∧
  (∀ s : State, s.halted = false → s.opcode = 2 → s.t = 2 →
    step s = .next { s with mar := s.operand, t := 3 }) ∧
  (∀ s : State, s.halted = false → s.opcode = 2 → s.t = 4 →
    (observe s).bus = some (BitVec.ofNat 8 (s.a.toNat + s.b.toNat)))

/-- SUB, steps 2 to 4 (R68): the difference to `B`, `A` unchanged, both flags from the same
subtraction. The spec flags this row as unlike the customary SAP-1 (D20, log entry 12). -/
def Obligations.SubRow : Prop :=
  (∀ cf zf, rom 3 2 cf zf = ⟨0x0012, false⟩ ∧ rom 3 3 cf zf = ⟨0x0404, false⟩ ∧
    rom 3 4 cf zf = ⟨0x8700, true⟩) ∧
  (∀ (n : Nibble) (s : State), s.t = 2 → exec (.sub n) s = .next { s with mar := n, t := 3 }) ∧
  (∀ (n : Nibble) (s : State), s.t = 3 →
    exec (.sub n) s = .next { s with b := s.mem.read s.mar.toNat, t := 4 }) ∧
  (∀ (n : Nibble) (s : State), s.t = 4 →
    exec (.sub n) s = .next { s with
      b := BitVec.ofInt 8 ((s.a.toNat : Int) - s.b.toNat)
      cf := decide (s.a.toNat < s.b.toNat)
      zf := decide (((s.a.toNat : Int) - s.b.toNat) % 256 = 0)
      t := 0 }) ∧
  (∀ s : State, s.halted = false → s.opcode = 3 → s.t = 2 →
    step s = .next { s with mar := s.operand, t := 3 }) ∧
  (∀ s : State, s.halted = false → s.opcode = 3 → s.t = 4 →
    (observe s).bus = some (BitVec.ofInt 8 ((s.a.toNat : Int) - s.b.toNat)))

/-- STA, steps 2 and 3 (R69), with its frame: the cell stored to is the one `MAR` selects, and every
other cell reads as before. -/
def Obligations.StaRow : Prop :=
  (∀ cf zf, rom 4 2 cf zf = ⟨0x0012, false⟩ ∧ rom 4 3 cf zf = ⟨0x0048, true⟩) ∧
  (∀ (n : Nibble) (s : State), s.t = 2 → exec (.sta n) s = .next { s with mar := n, t := 3 }) ∧
  (∀ (n : Nibble) (s : State), s.t = 3 → ∃ mem' : Memory,
    exec (.sta n) s = .next { s with mem := mem', t := 0 } ∧
    (∀ x : Nibble, mem'.read x.toNat = if x = s.mar then s.a else s.mem.read x.toNat)) ∧
  (∀ s : State, s.halted = false → s.opcode = 4 → s.t = 2 →
    step s = .next { s with mar := s.operand, t := 3 }) ∧
  (∀ s : State, s.halted = false → s.opcode = 4 → s.t = 3 → (observe s).bus = some s.a)

/-- LDI, step 2 (R70): `A` is the operand nibble exactly, flags and `MAR` unchanged. -/
def Obligations.LdiRow : Prop :=
  (∀ cf zf, rom 5 2 cf zf = ⟨0x0090, true⟩) ∧
  (∀ (n : Nibble) (s : State), s.t = 2 →
    exec (.ldi n) s = .next { s with a := n.setWidth 8, t := 0 }) ∧
  (∀ s : State, s.halted = false → s.opcode = 5 → s.t = 2 →
    (observe s).bus = some (s.ir &&& 0x0F) ∧ step s = .next { s with a := s.ir &&& 0x0F, t := 0 })

/-- JMP, step 2 (R71). -/
def Obligations.JmpRow : Prop :=
  (∀ cf zf, rom 6 2 cf zf = ⟨0x4010, true⟩) ∧
  (∀ (n : Nibble) (s : State), s.t = 2 → exec (.jmp n) s = .next { s with pc := n, t := 0 }) ∧
  (∀ s : State, s.halted = false → s.opcode = 6 → s.t = 2 →
    (observe s).bus = some (s.ir &&& 0x0F) ∧ step s = .next { s with pc := s.operand, t := 0 })

/-- JC, step 2 (R72): the jump word only with the carry flag set; `ZF` is not read. -/
def Obligations.JcRow : Prop :=
  (∀ zf, rom 7 2 true zf = ⟨0x4010, true⟩ ∧ rom 7 2 false zf = ⟨0x0000, true⟩) ∧
  (∀ (n : Nibble) (s : State), s.t = 2 →
    exec (.jc n) s = .next { s with pc := if s.cf then n else s.pc, t := 0 }) ∧
  (∀ s : State, s.halted = false → s.opcode = 7 → s.t = 2 →
    (observe s).word = (if s.cf then 0x4010 else 0x0000) ∧
    step s = .next { s with pc := if s.cf then s.operand else s.pc, t := 0 })

/-- JZ, step 2 (R73): the jump word only with the zero flag set; `CF` is not read. -/
def Obligations.JzRow : Prop :=
  (∀ cf, rom 8 2 cf true = ⟨0x4010, true⟩ ∧ rom 8 2 cf false = ⟨0x0000, true⟩) ∧
  (∀ (n : Nibble) (s : State), s.t = 2 →
    exec (.jz n) s = .next { s with pc := if s.zf then n else s.pc, t := 0 }) ∧
  (∀ s : State, s.halted = false → s.opcode = 8 → s.t = 2 →
    (observe s).word = (if s.zf then 0x4010 else 0x0000) ∧
    step s = .next { s with pc := if s.zf then s.operand else s.pc, t := 0 })

/-- Opcodes 9 to 13, step 2 (R74): no signal, exactly as NOP. -/
def Obligations.UnusedRows : Prop :=
  (∀ op : Nibble, 9 ≤ op.toNat → op.toNat ≤ 13 → ∀ cf zf, rom op 2 cf zf = ⟨0x0000, true⟩) ∧
  (∀ s : State, s.t = 2 →
    exec .unused9 s = .next { s with t := 0 } ∧ exec .unusedA s = .next { s with t := 0 } ∧
    exec .unusedB s = .next { s with t := 0 } ∧ exec .unusedC s = .next { s with t := 0 } ∧
    exec .unusedD s = .next { s with t := 0 }) ∧
  (∀ s : State, s.halted = false → 9 ≤ s.opcode.toNat → s.opcode.toNat ≤ 13 → s.t = 2 →
    step s = .next { s with t := 0 })

/-- OUT, step 2 (R75). That there is a latch is the spec's decision D4 (log entry 8). -/
def Obligations.OutRow : Prop :=
  (∀ cf zf, rom 14 2 cf zf = ⟨0x0840, true⟩) ∧
  (∀ s : State, s.t = 2 → exec .out s = .next { s with out := s.a, t := 0 }) ∧
  (∀ s : State, s.halted = false → s.opcode = 14 → s.t = 2 →
    (observe s).bus = some s.a ∧ step s = .next { s with out := s.a, t := 0 })

/-- HLT, step 2 (R76): only the HLT bit set, no driver, no latch, `PC` unchanged, `T'` = 0. -/
def Obligations.HltRow : Prop :=
  (∀ cf zf, rom 15 2 cf zf = ⟨0x0001, true⟩) ∧
  (∀ s : State, s.t = 2 → exec .hlt s = .next { s with halted := true, t := 0 }) ∧
  (∀ s : State, s.halted = false → s.opcode = 15 → s.t = 2 →
    observe s = { word := 0x0001, bus := none, alu := none, halted := true } ∧
    step s = .next { s with halted := true, t := 0 })

/-! ### Whole instructions, from boundary to boundary -/

/-- NOP, 3 micro-steps. -/
def Obligations.NopInstruction : Prop :=
  ∀ (s : State) (x : Nibble), s.AtBoundary → s.mem.read s.pc.toNat = joinNibbles 0 x →
    run 3 s = .next { s with mar := s.pc, ir := joinNibbles 0 x, pc := s.pc + 1 }

/-- LDA n, 4 micro-steps; no flag written. -/
def Obligations.LdaInstruction : Prop :=
  ∀ (s : State) (n : Nibble), s.AtBoundary → s.mem.read s.pc.toNat = joinNibbles 1 n →
    run 4 s = .next { s with
      a := s.mem.read n.toNat, mar := n, ir := joinNibbles 1 n, pc := s.pc + 1 }

/-- ADD n, 5 micro-steps: with `m = MEM[n]`, `A = (A + m) mod 256`, `B = m`, `CF = (A + m > 255)`,
`ZF = (A_new = 0)`. -/
def Obligations.AddInstruction : Prop :=
  ∀ (s : State) (n : Nibble) (m : Byte), s.AtBoundary → s.mem.read s.pc.toNat = joinNibbles 2 n →
    s.mem.read n.toNat = m →
    run 5 s = .next { s with
      a := BitVec.ofNat 8 ((s.a.toNat + m.toNat) % 256)
      b := m
      cf := decide (s.a.toNat + m.toNat > 255)
      zf := decide ((s.a.toNat + m.toNat) % 256 = 0)
      mar := n
      ir := joinNibbles 2 n
      pc := s.pc + 1 }

/-- SUB n, 5 micro-steps: with `m = MEM[n]`, `B = (A - m) mod 256`, `A` unchanged, `CF = (A < m)`,
`ZF = (A = m)`. -/
def Obligations.SubInstruction : Prop :=
  ∀ (s : State) (n : Nibble) (m : Byte), s.AtBoundary → s.mem.read s.pc.toNat = joinNibbles 3 n →
    s.mem.read n.toNat = m →
    run 5 s = .next { s with
      b := BitVec.ofInt 8 (((s.a.toNat : Int) - m.toNat) % 256)
      cf := decide (s.a.toNat < m.toNat)
      zf := decide (s.a = m)
      mar := n
      ir := joinNibbles 3 n
      pc := s.pc + 1 }

/-- STA n, 4 micro-steps: cell `n` takes `A`, every other cell reads as before, nothing else but `MAR`,
`IR`, `PC` changes; also when `n` is the instruction's own cell. -/
def Obligations.StaInstruction : Prop :=
  ∀ (s : State) (n : Nibble), s.AtBoundary → s.mem.read s.pc.toNat = joinNibbles 4 n →
    ∃ mem' : Memory,
      run 4 s = .next { s with mem := mem', mar := n, ir := joinNibbles 4 n, pc := s.pc + 1 } ∧
      ∀ x : Nibble, mem'.read x.toNat = if x = n then s.a else s.mem.read x.toNat

/-- LDI n, 3 micro-steps; no flag written. -/
def Obligations.LdiInstruction : Prop :=
  ∀ (s : State) (n : Nibble), s.AtBoundary → s.mem.read s.pc.toNat = joinNibbles 5 n →
    run 3 s = .next { s with
      a := n.setWidth 8, mar := s.pc, ir := joinNibbles 5 n, pc := s.pc + 1 }

/-- JMP n, 3 micro-steps. -/
def Obligations.JmpInstruction : Prop :=
  ∀ (s : State) (n : Nibble), s.AtBoundary → s.mem.read s.pc.toNat = joinNibbles 6 n →
    run 3 s = .next { s with mar := s.pc, ir := joinNibbles 6 n, pc := n }

/-- JC n, 3 micro-steps, taken or not. -/
def Obligations.JcInstruction : Prop :=
  ∀ (s : State) (n : Nibble), s.AtBoundary → s.mem.read s.pc.toNat = joinNibbles 7 n →
    run 3 s = .next { s with
      mar := s.pc, ir := joinNibbles 7 n, pc := if s.cf then n else s.pc + 1 }

/-- JZ n, 3 micro-steps, taken or not. -/
def Obligations.JzInstruction : Prop :=
  ∀ (s : State) (n : Nibble), s.AtBoundary → s.mem.read s.pc.toNat = joinNibbles 8 n →
    run 3 s = .next { s with
      mar := s.pc, ir := joinNibbles 8 n, pc := if s.zf then n else s.pc + 1 }

/-- The unused opcodes, 3 micro-steps each, as NOP. -/
def Obligations.UnusedInstructions : Prop :=
  ∀ (s : State) (op x : Nibble), 9 ≤ op.toNat → op.toNat ≤ 13 → s.AtBoundary →
    s.mem.read s.pc.toNat = joinNibbles op x →
    run 3 s = .next { s with mar := s.pc, ir := joinNibbles op x, pc := s.pc + 1 }

/-- OUT, 3 micro-steps. -/
def Obligations.OutInstruction : Prop :=
  ∀ (s : State) (x : Nibble), s.AtBoundary → s.mem.read s.pc.toNat = joinNibbles 14 x →
    run 3 s = .next { s with
      out := s.a, mar := s.pc, ir := joinNibbles 14 x, pc := s.pc + 1 }

/-- HLT, 3 micro-steps, and every further micro-step changes nothing (the spec's decision D11). -/
def Obligations.HltInstruction : Prop :=
  ∀ (s : State) (x : Nibble) (k : Nat), s.AtBoundary →
    s.mem.read s.pc.toNat = joinNibbles 15 x →
    run (3 + k) s = .next { s with
      halted := true, mar := s.pc, ir := joinNibbles 15 x, pc := s.pc + 1 }

/-! ### The machine as a whole -/

/-- R150: there is no fault, and no instruction, no step and no run of steps faults or is refused. -/
def Obligations.NothingFaultsOrIsRefused : Prop :=
  (∀ _ : Fault, False) ∧ (∀ (i : Instr) (s : State), ∃ t, exec i s = .next t) ∧
  (∀ s : State, ∃ t, step s = .next t) ∧ (∀ (k : Nat) (s : State), SafeRun k s)

/-- The micro-step as 44_cycle_driver.md section 1 writes it out, element by element, for every running
state; the observation with it. -/
def Obligations.MicroStepIsDecodeDriveLatch : Prop :=
  ∀ s : State, s.halted = false →
    ∃ (s' : State) (cw : ControlWord) (last : Bool) (bus : Option Byte),
      step s = .next s' ∧
      rom s.opcode s.t s.cf s.zf = ⟨cw, last⟩ ∧
      (cw.asserts .co = true → bus = some (s.pc.setWidth 8)) ∧
      (cw.asserts .ro = true → bus = some (s.mem.read s.mar.toNat)) ∧
      (cw.asserts .io = true → bus = some (s.ir &&& 0x0F)) ∧
      (cw.asserts .ao = true → bus = some s.a) ∧
      (cw.asserts .eo = true → bus = some (if cw.asserts .su then s.a - s.b else s.a + s.b)) ∧
      (cw.asserts .co = false → cw.asserts .ro = false → cw.asserts .io = false →
        cw.asserts .ao = false → cw.asserts .eo = false → bus = none) ∧
      (if cw.asserts .mi then some s'.mar = bus.map (fun v => v.setWidth 4) else s'.mar = s.mar) ∧
      (if cw.asserts .ri then
        ∃ v, bus = some v ∧
          ∀ x : Nibble, s'.mem.read x.toNat = if x = s.mar then v else s.mem.read x.toNat
       else s'.mem = s.mem) ∧
      (if cw.asserts .ii then some s'.ir = bus else s'.ir = s.ir) ∧
      (if cw.asserts .ai then some s'.a = bus else s'.a = s.a) ∧
      (if cw.asserts .bi then some s'.b = bus else s'.b = s.b) ∧
      (if cw.asserts .oi then some s'.out = bus else s'.out = s.out) ∧
      (if cw.asserts .jp then some s'.pc = bus.map (fun v => v.setWidth 4)
       else if cw.asserts .ce then s'.pc.toNat = (s.pc.toNat + 1) % 16 else s'.pc = s.pc) ∧
      (if cw.asserts .eo && cw.asserts .fi then
        s'.cf = aluCarry s.a s.b (cw.asserts .su) ∧ s'.zf = aluZero s.a s.b (cw.asserts .su)
       else s'.cf = s.cf ∧ s'.zf = s.zf) ∧
      s'.halted = cw.asserts .hlt ∧
      s'.t = (if last then 0 else s.t + 1) ∧
      observe s = {
        word := cw, bus := bus
        alu := if cw.asserts .eo then some (aluResult s.a s.b (cw.asserts .su)) else none
        halted := s'.halted }

/-- A halted machine changes nothing however often it is clocked, and reports halted with no word, no bus
and no ALU value; only reset leaves the halted state. The spec's decision D11, log entry 4. -/
def Obligations.HaltedMachineStaysHalted : Prop :=
  ∀ s : State, s.halted = true →
    (∀ k, run k s = .next s) ∧
    (∀ clock, pulse ⟨clock, none⟩ s = .next s) ∧
    observe s = { word := 0x0000, bus := none, alu := none, halted := true }

/-- Every step keeps the invariant of 10_state.md section 8, from every state that meets it. -/
def Obligations.StepKeepsStateInvariant : Prop :=
  ∀ s s' : State, s.Inv → step s = .next s' → s'.Inv

/-- Every state reached from a reset, with whatever image, meets the invariant of 10_state.md section 8. -/
def Obligations.ReachableStatesMeetInvariant : Prop :=
  ∀ s : State, s.Reachable → s.Inv

/-- Every step keeps where the fetch stands: `MAR` = `PC` before fetch step 1; after it, and in a halted
machine, `PC` = `MAR` + 1 (mod 16) and `IR` is the byte in the cell `MAR` selects. -/
def Obligations.StepKeepsFetchInvariant : Prop :=
  ∀ s s' : State, s.FetchInv → step s = .next s' → s'.FetchInv

/-- A halted state reached from a reset has a HLT byte in `IR`, `T` = 0, and `PC` one more (mod 16) than
the address the HLT byte was fetched from (44_cycle_driver.md section 4). -/
def Obligations.EndOfRun : Prop :=
  ∀ s : State, s.Reachable → s.halted = true →
    s.t = 0 ∧ decodeByte s.ir = .hlt ∧ s.ir = s.mem.read s.mar.toNat ∧
    s.pc.toNat = (s.mar.toNat + 1) % 16

/-- The canonical form of memory (the model's, log entry 1) is kept by every step and by placing an
instruction. -/
def Obligations.StepKeepsMemoryForm : Prop :=
  ∀ s : State, s.mem.wf →
    (∀ s', step s = .next s' → s'.mem.wf) ∧ ∀ nbits w, (s.withFetchWord nbits w).mem.wf

/-- Canonical memories (the model's form, log entry 1) that read the same in all sixteen cells are the same
data. -/
def Obligations.EqualReadsGiveEqualMemories : Prop :=
  ∀ m m' : Memory, m.wf → m'.wf → (∀ x : Nibble, m.read x.toNat = m'.read x.toNat) → m = m'

/-- What reset leaves, for every image: the values of 10_state.md section 7 (those of `IR`, `MAR`, `CF`,
`ZF`, `T`, `HALTED`, `OUT` are the spec's decision D14, log entry 2), the image in memory, the invariants,
the canonical form. A reset wins over a coinciding clock pulse (decision D15). The fixed reset state is
the reset with the blank image (the model's choice, log entry 1). -/
def Obligations.ResetLeaves : Prop :=
  ∀ (image : Image) (s : State) (clock : Bool), ∃ r : State,
    pulse ⟨clock, some image⟩ s = .next r ∧ r = State.resetWith image ∧
    (∀ x : Fin 16, r.mem.read x.val = image[x.val]) ∧
    r.a = 0x00 ∧ r.b = 0x00 ∧ r.pc = 0 ∧ r.ir = 0x00 ∧ r.mar = 0 ∧ r.cf = false ∧ r.zf = false ∧
    r.t = 0 ∧ r.halted = false ∧ r.out = 0x00 ∧
    r.Inv ∧ r.FetchInv ∧ r.mem.wf ∧
    State.resetWith Config.blankImage = State.reset

/-- The first two micro-steps after reset fetch the byte in cell 0, for every image. -/
def Obligations.ExecutionBeginsAtCellZero : Prop :=
  ∀ image : Image,
    run 1 (State.resetWith image) = .next { State.resetWith image with t := 1 } ∧
    run 2 (State.resetWith image) = .next { State.resetWith image with ir := image[0], pc := 1, t := 2 }

/-- The micro-step counter (R63): `T'` is 0 after a step the decoder marks last and `T` + 1 otherwise; the
last step of each opcode; and so the micro-steps each instruction takes from its boundary. -/
def Obligations.MicroStepCounter : Prop :=
  (∀ s s' : State, s.halted = false → step s = .next s' →
    s'.t = if (rom s.opcode s.t s.cf s.zf).last then 0 else s.t + 1) ∧
  (∀ (op : Nibble) (t : MicroStep) (cf zf : Bool), t.toNat ≤ 4 →
    let lastStep := if op = 1 ∨ op = 4 then 3 else if op = 2 ∨ op = 3 then 4 else 2
    (t.toNat < lastStep → (rom op t cf zf).last = false) ∧
    (t.toNat = lastStep → (rom op t cf zf).last = true)) ∧
  (∀ (s : State) (op n : Nibble), s.AtBoundary → s.mem.read s.pc.toNat = joinNibbles op n →
    let steps := if op = 1 ∨ op = 4 then 4 else if op = 2 ∨ op = 3 then 5 else 3
    (∀ k, 0 < k → k < steps → ∃ t, run k s = .next t ∧ t.t.toNat = k ∧ t.halted = false) ∧
    (∃ t, run steps s = .next t ∧ t.t = 0 ∧ instruction s = .next t))

/-- The ROM holds exactly thirteen words, all well formed and free of the conflicts
40_microcode_decoder.md section 6 lists; beyond an opcode's last step it holds (0x0000, last) (the spec's
decision D13). -/
def Obligations.RomHoldsThirteenWords : Prop :=
  (∀ w : ControlWord,
    w ∈ [0x0000, 0x0001, 0x0012, 0x0048, 0x0084, 0x0090, 0x0404, 0x0840, 0x1024, 0x2002, 0x4010,
      0x8180, 0x8700] ↔ ∃ op t cf zf, (rom op t cf zf).word = w) ∧
  (∀ op t cf zf, let w := (rom op t cf zf).word
    w.wellFormed = true ∧ (w.asserts .ce && w.asserts .jp) = false ∧
    (w.asserts .mi && w.asserts .ri) = false ∧ (w.asserts .ro && w.asserts .ri) = false ∧
    (w.asserts .su = true → w.asserts .eo = true) ∧ (w.asserts .fi = true → w.asserts .eo = true)) ∧
  (∀ (op : Nibble) (t : MicroStep) (cf zf : Bool),
    (if op = 1 ∨ op = 4 then 3 else if op = 2 ∨ op = 3 then 4 else 2) < t.toNat →
    rom op t cf zf = ⟨0x0000, true⟩)

/-- The decoder reads the opcode, `T`, `CF` and `ZF` and nothing else: running states that agree on them
report the same control word and advance `T` alike. -/
def Obligations.DecoderReadsOnlyOpcodeCounterFlags : Prop :=
  ∀ s s' : State, s.halted = false → s'.halted = false → s.opcode = s'.opcode → s.t = s'.t →
    s.cf = s'.cf → s.zf = s'.zf →
    (observe s).word = (observe s').word ∧
    ∃ r r', step s = .next r ∧ step s' = .next r' ∧ r.t = r'.t

/-- The ALU (R105 to R108), in unbounded integers. -/
def Obligations.AluResultCarryZero : Prop :=
  ∀ a b : Byte,
    (aluResult a b false).toNat = (a.toNat + b.toNat) % 256 ∧
    ((aluResult a b true).toNat : Int) = ((a.toNat : Int) - b.toNat) % 256 ∧
    (aluCarry a b false = true ↔ 255 < a.toNat + b.toNat) ∧
    (aluCarry a b true = true ↔ a.toNat < b.toNat) ∧
    (∀ su, aluZero a b su = true ↔ (aluResult a b su).toNat = 0) ∧
    (aluZero a b true = true ↔ a = b)

/-- The arithmetic laws of 43_alu_flags.md section 3. -/
def Obligations.ArithmeticLaws : Prop :=
  ∀ a b : Byte,
    a.toNat + b.toNat = (aluResult a b false).toNat + 256 * (aluCarry a b false).toNat ∧
    (a.toNat : Int) - b.toNat = (aluResult a b true).toNat - 256 * (aluCarry a b true).toNat ∧
    (aluCarry a b false = true ↔ (aluResult a b false).toNat < a.toNat) ∧
    (aluCarry a b false = true ↔ (aluResult a b false).toNat < b.toNat) ∧
    ((aluZero a b false = true ∧ aluCarry a b false = true) ↔ a.toNat + b.toNat = 256) ∧
    ¬(aluZero a b true = true ∧ aluCarry a b true = true)

/-- The flag latches (R109): under any word the transfer stage accepts they are written, both together,
exactly when EO and FI are asserted, from the pre-step `A`, `B` and the same SU; under the ROM that is
step 4 of ADD and SUB, so no other micro-step changes a flag. -/
def Obligations.FlagsWrittenOnlyWithAluOutAndFlagsIn : Prop :=
  (∀ (m : MicroOp) (s s' : State), transfer m s = .next s' →
    (m.word.asserts .eo = true → m.word.asserts .fi = true →
      s'.cf = aluCarry s.a s.b (m.word.asserts .su) ∧
      s'.zf = aluZero s.a s.b (m.word.asserts .su)) ∧
    (m.word.asserts .eo = false ∨ m.word.asserts .fi = false → s'.cf = s.cf ∧ s'.zf = s.zf)) ∧
  (∀ op t cf zf, (rom op t cf zf).word.asserts .fi = true ↔ (op = 2 ∨ op = 3) ∧ t = 4) ∧
  (∀ s s' : State, step s = .next s' → ¬((s.opcode = 2 ∨ s.opcode = 3) ∧ s.t = 4) →
    s'.cf = s.cf ∧ s'.zf = s.zf)

/-- The PC stage (R100, R102, R103): under any word the transfer stage accepts, Jump takes the low four
bits of the bus and wins over PC-enable; PC-enable alone increments modulo 16; neither leaves `PC`. Under
the ROM PC-enable is asserted in fetch step 1 and nowhere else, and the increment touches no flag. The
truncation of the bus to four bits is the spec's decision D7. -/
def Obligations.PcStage : Prop :=
  (∀ (m : MicroOp) (s s' : State), transfer m s = .next s' →
    (m.word.asserts .jp = true →
      ∃ v, busValue s.operand m.word s = some v ∧ s'.pc = v.setWidth 4) ∧
    (m.word.asserts .jp = false → m.word.asserts .ce = true →
      s'.pc.toNat = (s.pc.toNat + 1) % 16) ∧
    (m.word.asserts .jp = false → m.word.asserts .ce = false → s'.pc = s.pc)) ∧
  (∀ op t cf zf, (rom op t cf zf).word.asserts .ce = true ↔ t = 1) ∧
  (∀ op t cf zf, ((rom op t cf zf).word.asserts .ce && (rom op t cf zf).word.asserts .jp) = false) ∧
  (∀ s s' : State, s.t = 1 → step s = .next s' → s'.cf = s.cf ∧ s'.zf = s.zf)

/-- The transfer stage on any well-formed word (41_transfer_bus.md sections 1 to 3): the bus is what the
asserted driver gives from the pre-step state, or nothing; it answers a next state in which each of the
seven bus latches has the bus value or what it held (`PC`: or its increment); the write uses the pre-step
`MAR`. That it is two-phase is the spec's decision D5, that `MAR` and `PC` keep four bits D6 and D7, what
PC-out drives D3 (log entry 9), the output latch D4 (log entry 8). -/
def Obligations.TransferLatchesTheBus : Prop :=
  ∀ (m : MicroOp) (s : State), m.word.wellFormed = true →
    (m.word.asserts .co = true → busValue s.operand m.word s = some (s.pc.setWidth 8)) ∧
    (m.word.asserts .ro = true → busValue s.operand m.word s = some (s.mem.read s.mar.toNat)) ∧
    (m.word.asserts .io = true → busValue s.operand m.word s = some (s.ir &&& 0x0F)) ∧
    (m.word.asserts .ao = true → busValue s.operand m.word s = some s.a) ∧
    (m.word.asserts .eo = true → busValue s.operand m.word s =
      some (if m.word.asserts .su then s.a - s.b else s.a + s.b)) ∧
    ((∀ d ∈ [Signal.co, .ro, .io, .ao, .eo], m.word.asserts d = false) →
      busValue s.operand m.word s = none) ∧
    ∃ s', transfer m s = .next s' ∧
    (if m.word.asserts .mi
      then some s'.mar = (busValue s.operand m.word s).map (fun v => v.setWidth 4) else s'.mar = s.mar) ∧
    (if m.word.asserts .ri then
      ∃ v, busValue s.operand m.word s = some v ∧
        ∀ x : Nibble, s'.mem.read x.toNat = if x = s.mar then v else s.mem.read x.toNat
     else s'.mem = s.mem) ∧
    (if m.word.asserts .ii then some s'.ir = busValue s.operand m.word s else s'.ir = s.ir) ∧
    (if m.word.asserts .ai then some s'.a = busValue s.operand m.word s else s'.a = s.a) ∧
    (if m.word.asserts .bi then some s'.b = busValue s.operand m.word s else s'.b = s.b) ∧
    (if m.word.asserts .oi then some s'.out = busValue s.operand m.word s else s'.out = s.out) ∧
    (if m.word.asserts .jp
      then some s'.pc = (busValue s.operand m.word s).map (fun v => v.setWidth 4)
      else if m.word.asserts .ce then s'.pc.toNat = (s.pc.toNat + 1) % 16 else s'.pc = s.pc)

/-- Two drivers, or a bus latch with no driver: the transfer stage refuses the word (the spec's decision
D8). -/
def Obligations.IllFormedWordsAreRefused : Prop :=
  ∀ (m : MicroOp) (s : State),
    (∀ d ∈ [Signal.co, .ro, .io, .ao, .eo], ∀ d' ∈ [Signal.co, .ro, .io, .ao, .eo], d ≠ d' →
      m.word.asserts d = true → m.word.asserts d' = true →
      transfer m s = .refused (.illFormedControlWord m.word)) ∧
    (∀ l ∈ [Signal.mi, .ri, .ii, .ai, .bi, .oi, .jp], m.word.asserts l = true →
      (∀ d ∈ [Signal.co, .ro, .io, .ao, .eo], m.word.asserts d = false) →
      transfer m s = .refused (.illFormedControlWord m.word))

/-- A well-formed word with no latch signal, no CE, no HLT, and not both EO and FI, changes no element
but `T`; driving the bus has no effect by itself (41_transfer_bus.md section 4; FI with EO is the flag
latch of R109). -/
def Obligations.DrivingAloneChangesNothing : Prop :=
  ∀ (m : MicroOp) (s : State), m.word.wellFormed = true →
    (∀ l ∈ [Signal.mi, .ri, .ii, .ai, .bi, .oi, .jp, .ce, .hlt], m.word.asserts l = false) →
    (m.word.asserts .eo && m.word.asserts .fi) = false →
    transfer m s = .next { s with t := if m.last then 0 else s.t + 1 }

/-- The one write (R31): under any accepted word only the cell pre-step `MAR` selects changes, to the bus
value, and only if RI is asserted; under the ROM that is step 3 of STA, where the bus is `A`. -/
def Obligations.MemoryWrittenOnlyByRamIn : Prop :=
  (∀ (m : MicroOp) (s s' : State), transfer m s = .next s' →
    (m.word.asserts .ri = false → s'.mem = s.mem) ∧
    (m.word.asserts .ri = true → ∃ v, busValue s.operand m.word s = some v ∧
      ∀ x : Nat, s'.mem.read x = if x % 16 = s.mar.toNat then v else s.mem.read x)) ∧
  (∀ op t cf zf, (rom op t cf zf).word.asserts .ri = true ↔ op = 4 ∧ t = 3) ∧
  (∀ s s' : State, step s = .next s' → ∀ x : Nat,
    s'.mem.read x =
      if s.halted = false ∧ s.opcode = 4 ∧ s.t = 3 ∧ x % 16 = s.mar.toNat then s.a
      else s.mem.read x)

/-- The one read (R30): addresses wrap modulo 16; under a well-formed word with RAM-out the bus is the
cell pre-step `MAR` selects, and without RAM-out the bus does not depend on memory. A read changes no
state: RAM-out alone changes nothing but `T`, and under the ROM a step with RAM-out leaves memory. -/
def Obligations.MemoryReadByRamOut : Prop :=
  (∀ (m : Memory) (x : Nat), m.read x = m.read (x % 16)) ∧
  (∀ (m : MicroOp) (s : State), m.word.wellFormed = true → m.word.asserts .ro = true →
    busValue s.operand m.word s = some (s.mem.read s.mar.toNat)) ∧
  (∀ (cw : ControlWord) (s : State) (mem' : Memory), cw.asserts .ro = false →
    busValue s.operand cw { s with mem := mem' } = busValue s.operand cw s) ∧
  (∀ (last : Bool) (s : State),
    transfer ⟨ControlWord.ofSignals [.ro], last⟩ s = .next { s with t := if last then 0 else s.t + 1 }) ∧
  (∀ (s s' : State), (rom s.opcode s.t s.cf s.zf).word.asserts .ro = true → step s = .next s' →
    s'.mem = s.mem)

/-- A store is seen by the next fetch: STA into the cell after its own, then the fetch of that cell reads
the stored `A` (20_memory.md section 5). -/
def Obligations.StoreIsSeenByTheNextFetch : Prop :=
  ∀ s : State, s.AtBoundary → s.mem.read s.pc.toNat = joinNibbles 4 (s.pc + 1) →
    ∃ s', run 6 s = .next s' ∧ s'.ir = s.a ∧ s'.mar = s.pc + 1 ∧ s'.t = 2

/-- Nothing in the machine reads `OUT` (10_state.md section 6, the spec's decision D4): runs from states
that differ only in `OUT` differ only in `OUT`. -/
def Obligations.OutIsReadByNothing : Prop :=
  ∀ (k : Nat) (s : State) (v : Byte), ∃ t t',
    run k s = .next t ∧ run k { s with out := v } = .next t' ∧
    { t with out := 0 } = { t' with out := 0 }

/-- `B` is visible only to the ALU and every ADD or SUB reloads it first (46_instr_arithmetic.md): one
instruction from boundary states that differ only in `B` gives states that differ at most in `B`, so a
program cannot see what `B` held. -/
def Obligations.BIsInvisibleAcrossInstructions : Prop :=
  ∀ (s : State) (v : Byte), s.AtBoundary → ∃ t t',
    instruction s = .next t ∧ instruction { s with b := v } = .next t' ∧
    { t with b := 0 } = { t' with b := 0 }

/-- The HLT signal (R120): `HALTED'` = 1 and the report is 1 on that very micro-step; it has no other
effect: the same word without it does the same to everything else; the machine then does not advance
further (as the no-op of decision D11, log entry 4). The ROM's only HLT word is 0x0001. -/
def Obligations.HltSignalOnlyHalts : Prop :=
  (∀ (m : MicroOp) (s : State), m.word.wellFormed = true → m.word.asserts .hlt = true →
    ∃ s', transfer m s = .next s' ∧ s'.halted = true ∧ (observeWord m.word s).halted = true ∧
      transfer ⟨m.word &&& 0xFFFE, m.last⟩ s = .next { s' with halted := s.halted } ∧
      ∀ k, run k s' = .next s') ∧
  (∀ op t cf zf, (rom op t cf zf).word.asserts .hlt = true → (rom op t cf zf).word = 0x0001)

/-- The frame of every instruction, at every micro-step: what `exec i` leaves as it was when it answers a
next state. Memory is read byte by byte; STA stores to the cell pre-step `MAR` selects, at step 3. -/
def Obligations.FrameOfEveryInstruction : Prop :=
  ∀ (i : Instr) (s s' : State), exec i s = .next s' →
    (∀ x : Nibble, ¬(i.opcode = 4 ∧ s.t = 3 ∧ x = s.mar) →
      s'.mem.read x.toNat = s.mem.read x.toNat) ∧
    (i.opcode ≠ 1 → i.opcode ≠ 2 → i.opcode ≠ 5 → s'.a = s.a) ∧
    (i.opcode ≠ 2 → i.opcode ≠ 3 → s'.b = s.b ∧ s'.cf = s.cf ∧ s'.zf = s.zf) ∧
    (s.t ≠ 4 → s'.cf = s.cf ∧ s'.zf = s.zf) ∧
    (s.t ≠ 1 → s'.ir = s.ir) ∧
    (s.t ≠ 1 → i.opcode ≠ 6 → i.opcode ≠ 7 → i.opcode ≠ 8 → s'.pc = s.pc) ∧
    (s.t ≠ 0 → s.t ≠ 2 → s'.mar = s.mar) ∧
    (s.t = 2 → i.opcode ≠ 1 → i.opcode ≠ 2 → i.opcode ≠ 3 → i.opcode ≠ 4 → s'.mar = s.mar) ∧
    (i.opcode ≠ 14 → s'.out = s.out) ∧
    (i.opcode ≠ 15 → s'.halted = s.halted) ∧
    (s.t.toNat < 2 → s'.a = s.a ∧ s'.b = s.b ∧ s'.out = s.out ∧ s'.halted = s.halted)
end

