-- ==== Sys2Proof/Laws/State.lean ====
section
/-! SUPPORT. One lemma per field per update of the state. -/

namespace Sys2Proof.Machine

section latch
variable (cw : ControlWord) (bus : Option Byte) (last : Bool) (s : State)

@[simp] theorem latch_mem :
    (latch cw bus last s).mem = latched (cw.asserts .ri) bus s.mem (s.mem.write s.mar.toNat) := rfl
@[simp] theorem latch_a : (latch cw bus last s).a = latched (cw.asserts .ai) bus s.a id := rfl
@[simp] theorem latch_b : (latch cw bus last s).b = latched (cw.asserts .bi) bus s.b id := rfl
@[simp] theorem latch_ir : (latch cw bus last s).ir = latched (cw.asserts .ii) bus s.ir id := rfl
@[simp] theorem latch_pc : (latch cw bus last s).pc = nextPc cw bus s.pc := rfl
@[simp] theorem latch_mar :
    (latch cw bus last s).mar = latched (cw.asserts .mi) bus s.mar addressFromBus := rfl
@[simp] theorem latch_cf : (latch cw bus last s).cf = nextCarry cw s.a s.b s.cf := rfl
@[simp] theorem latch_zf : (latch cw bus last s).zf = nextZero cw s.a s.b s.zf := rfl
@[simp] theorem latch_t : (latch cw bus last s).t = nextMicroStep last s.t := rfl
@[simp] theorem latch_halted : (latch cw bus last s).halted = (s.halted || cw.asserts .hlt) := rfl
@[simp] theorem latch_out : (latch cw bus last s).out = latched (cw.asserts .oi) bus s.out id := rfl

end latch

section latched
variable {α : Type} (bus : Option Byte) (v : Byte) (old : α) (f : Byte → α)

@[simp] theorem latched_false : latched false bus old f = old := rfl
@[simp] theorem latched_true : latched true (some v) old f = f v := rfl

end latched

section fetched
variable (s : State) (v : Byte)

@[simp] theorem fetched_mem : (s.fetched v).mem = s.mem.write s.pc.toNat v := rfl
@[simp] theorem fetched_a : (s.fetched v).a = s.a := rfl
@[simp] theorem fetched_b : (s.fetched v).b = s.b := rfl
@[simp] theorem fetched_ir : (s.fetched v).ir = v := rfl
@[simp] theorem fetched_pc : (s.fetched v).pc = s.pc + 1 := rfl
@[simp] theorem fetched_mar : (s.fetched v).mar = s.pc := rfl
@[simp] theorem fetched_cf : (s.fetched v).cf = s.cf := rfl
@[simp] theorem fetched_zf : (s.fetched v).zf = s.zf := rfl
@[simp] theorem fetched_t : (s.fetched v).t = 2 := rfl
@[simp] theorem fetched_halted : (s.fetched v).halted = false := rfl
@[simp] theorem fetched_out : (s.fetched v).out = s.out := rfl

end fetched

section resetWith
variable (image : Image)

@[simp] theorem resetWith_mem : (State.resetWith image).mem = Memory.ofImage image := rfl
@[simp] theorem resetWith_a : (State.resetWith image).a = 0x00 := rfl
@[simp] theorem resetWith_b : (State.resetWith image).b = 0x00 := rfl
@[simp] theorem resetWith_ir : (State.resetWith image).ir = 0x00 := rfl
@[simp] theorem resetWith_pc : (State.resetWith image).pc = 0 := rfl
@[simp] theorem resetWith_mar : (State.resetWith image).mar = 0 := rfl
@[simp] theorem resetWith_cf : (State.resetWith image).cf = false := rfl
@[simp] theorem resetWith_zf : (State.resetWith image).zf = false := rfl
@[simp] theorem resetWith_t : (State.resetWith image).t = 0 := rfl
@[simp] theorem resetWith_halted : (State.resetWith image).halted = false := rfl
@[simp] theorem resetWith_out : (State.resetWith image).out = 0x00 := rfl

end resetWith

end Sys2Proof.Machine
end

