-- ==== Sys2Proof/Laws/Microcode.lean ====
section
/-! SUPPORT. What a micro-step, an instruction and the step can do. -/

namespace Sys2Proof.Machine

/-- Every word of the ROM is well formed: the check R78 states. -/
theorem rom_wellFormed (op : Nibble) (t : MicroStep) (cf zf : Bool) :
    (rom op t cf zf).word.wellFormed = true := by
  revert op t cf zf; decide

section
variable (op : Nibble) (t : MicroStep) (cf zf : Bool)

/-! Where the ROM asserts each signal (the columns of the table R64 read the other way). -/

theorem rom_asserts_mi : (rom op t cf zf).word.asserts .mi =
    decide (t = 0 ∨ t = 2 ∧ (op = 1 ∨ op = 2 ∨ op = 3 ∨ op = 4)) := by
  revert op t cf zf; decide
theorem rom_asserts_ri : (rom op t cf zf).word.asserts .ri = decide (op = 4 ∧ t = 3) := by
  revert op t cf zf; decide
theorem rom_asserts_ii : (rom op t cf zf).word.asserts .ii = decide (t = 1) := by
  revert op t cf zf; decide
theorem rom_asserts_ai : (rom op t cf zf).word.asserts .ai =
    decide (op = 1 ∧ t = 3 ∨ op = 2 ∧ t = 4 ∨ op = 5 ∧ t = 2) := by
  revert op t cf zf; decide
theorem rom_asserts_bi : (rom op t cf zf).word.asserts .bi =
    decide ((op = 2 ∨ op = 3) ∧ t = 3 ∨ op = 3 ∧ t = 4) := by
  revert op t cf zf; decide
theorem rom_asserts_oi : (rom op t cf zf).word.asserts .oi = decide (op = 14 ∧ t = 2) := by
  revert op t cf zf; decide
theorem rom_asserts_jp : (rom op t cf zf).word.asserts .jp =
    decide (t = 2 ∧ (op = 6 ∨ op = 7 ∧ cf = true ∨ op = 8 ∧ zf = true)) := by
  revert op t cf zf; decide
theorem rom_asserts_ce : (rom op t cf zf).word.asserts .ce = decide (t = 1) := by
  revert op t cf zf; decide
theorem rom_asserts_hlt : (rom op t cf zf).word.asserts .hlt = decide (op = 15 ∧ t = 2) := by
  revert op t cf zf; decide
theorem rom_asserts_eo : (rom op t cf zf).word.asserts .eo = decide ((op = 2 ∨ op = 3) ∧ t = 4) := by
  revert op t cf zf; decide
theorem rom_asserts_fi : (rom op t cf zf).word.asserts .fi = decide ((op = 2 ∨ op = 3) ∧ t = 4) := by
  revert op t cf zf; decide
theorem rom_asserts_su : (rom op t cf zf).word.asserts .su = decide (op = 3 ∧ t = 4) := by
  revert op t cf zf; decide
theorem rom_asserts_co : (rom op t cf zf).word.asserts .co = decide (t = 0) := by
  revert op t cf zf; decide
theorem rom_asserts_ro : (rom op t cf zf).word.asserts .ro =
    decide (t = 1 ∨ t = 3 ∧ (op = 1 ∨ op = 2 ∨ op = 3)) := by
  revert op t cf zf; decide
theorem rom_asserts_ao : (rom op t cf zf).word.asserts .ao =
    decide (op = 4 ∧ t = 3 ∨ op = 14 ∧ t = 2) := by
  revert op t cf zf; decide
theorem rom_asserts_io : (rom op t cf zf).word.asserts .io =
    decide (t = 2 ∧ (op = 1 ∨ op = 2 ∨ op = 3 ∨ op = 4 ∨ op = 5 ∨ op = 6 ∨ op = 7 ∧ cf = true ∨
      op = 8 ∧ zf = true)) := by
  revert op t cf zf; decide

end

/-- A micro-step under a well-formed word answers its latched state. -/
theorem microStep_of_wellFormed {m : MicroOp} (h : m.word.wellFormed = true) (n : Nibble) (s : State) :
    microStep n m s = .next (latch m.word (busValue n m.word s) m.last s) := by
  simp [microStep, h]

/-- A micro-step that answers a next state had a well-formed word and answers the latched state. -/
theorem microStep_next {n : Nibble} {m : MicroOp} {s s' : State} (h : microStep n m s = .next s') :
    m.word.wellFormed = true ∧ s' = latch m.word (busValue n m.word s) m.last s := by
  by_cases hw : m.word.wellFormed = true
  · simp only [microStep, hw, if_true, Host.Outcome.next.injEq] at h
    exact ⟨hw, h.symm⟩
  · simp [microStep, hw] at h

/-- Every instruction is one micro-step under its row of the ROM, with its own operand. -/
theorem exec_eq_microStep (i : Instr) (s : State) :
    exec i s = microStep (i.operand?.getD s.operand) (rom i.opcode s.t s.cf s.zf) s := by
  cases i <;> rfl

/-- An instruction answers the latched state of its row. -/
theorem exec_eq_latch (i : Instr) (s : State) :
    exec i s =
      .next (latch (rom i.opcode s.t s.cf s.zf).word
        (busValue (i.operand?.getD s.operand) (rom i.opcode s.t s.cf s.zf).word s)
        (rom i.opcode s.t s.cf s.zf).last s) := by
  rw [exec_eq_microStep, microStep_of_wellFormed (rom_wellFormed ..)]

/-- The decoded instruction has the opcode of its byte. -/
theorem opcode_decodeByte (b : Byte) : (decodeByte b).opcode = highNibble b := by
  revert b; decide

/-- The decoded instruction's operand, where it has one, is its byte's low nibble. -/
theorem operand_decodeByte (b : Byte) : (decodeByte b).operand?.getD (lowNibble b) = lowNibble b := by
  revert b; decide

/-- A halted machine stays as it is. -/
theorem step_of_halted {s : State} (h : s.halted = true) : step s = .next s := by
  simp [step, h]

/-- A running machine answers the latched state of the word its decoder gives. -/
theorem step_of_running {s : State} (h : s.halted = false) :
    step s = .next (latch s.microOp.word (busValue s.operand s.microOp.word s) s.microOp.last s) := by
  simp only [step, h, Bool.false_eq_true, if_false, exec_eq_latch, opcode_decodeByte,
    State.operand, operand_decodeByte, State.microOp, State.opcode]

/-- A step that answers `s'`: either halted and nothing changed, or the latched state. -/
theorem step_next {s s' : State} (h : step s = .next s') :
    (s.halted = true ∧ s' = s) ∨
    (s.halted = false ∧ s' = latch s.microOp.word (busValue s.operand s.microOp.word s) s.microOp.last s) := by
  cases hh : s.halted
  · rw [step_of_running hh] at h
    exact .inr ⟨rfl, (Host.Outcome.next.inj h).symm⟩
  · rw [step_of_halted hh] at h
    exact .inl ⟨rfl, (Host.Outcome.next.inj h).symm⟩

end Sys2Proof.Machine
end

