-- ==== Sys2Proof/Laws/Bus.lean ====
section
/-! SUPPORT. Well-formed control words and the bus value they give (spec/30_encoding.md R52,
spec/41_transfer_bus.md R86). -/

namespace Sys2Proof.Machine

theorem mem_drivers {cw : ControlWord} {d : Signal} :
    d ∈ cw.drivers ↔ d ∈ [Signal.co, .ro, .io, .ao, .eo] ∧ cw.asserts d = true := by
  simp [ControlWord.drivers]

theorem mem_busLatches {cw : ControlWord} {l : Signal} :
    l ∈ cw.busLatches ↔ l ∈ [Signal.mi, .ri, .ii, .ai, .bi, .oi, .jp] ∧ cw.asserts l = true := by
  simp [ControlWord.busLatches]

/-- A well-formed word has one driver at most. -/
theorem driver_unique {cw : ControlWord} (h : cw.wellFormed = true) {d d' : Signal}
    (hd : d ∈ cw.drivers) (hd' : d' ∈ cw.drivers) : d = d' := by
  have len : cw.drivers.length ≤ 1 := by
    simp only [ControlWord.wellFormed, Bool.and_eq_true, decide_eq_true_eq] at h
    exact h.1
  match hl : cw.drivers, len with
  | [x], _ =>
    rw [hl] at hd hd'
    rw [List.mem_singleton.1 hd, List.mem_singleton.1 hd']
  | [], _ => rw [hl] at hd; simp at hd

/-- A driver other than the asserted one of a well-formed word is not asserted. -/
theorem driver_off {cw : ControlWord} (h : cw.wellFormed = true) {d d' : Signal}
    (hd : cw.asserts d = true) (m : d ∈ [Signal.co, .ro, .io, .ao, .eo])
    (m' : d' ∈ [Signal.co, .ro, .io, .ao, .eo]) (ne : d ≠ d') : cw.asserts d' = false := by
  by_contra hd'
  exact ne (driver_unique h (mem_drivers.2 ⟨m, hd⟩) (mem_drivers.2 ⟨m', by simpa using hd'⟩))

/-- A well-formed word that asserts a bus latch has a driver. -/
theorem latch_has_driver {cw : ControlWord} (h : cw.wellFormed = true) {l : Signal}
    (hl : l ∈ cw.busLatches) : ∃ d, d ∈ cw.drivers := by
  have ne : cw.busLatches ≠ [] := List.ne_nil_of_mem hl
  simp only [ControlWord.wellFormed, Bool.and_eq_true, Bool.or_eq_true, List.isEmpty_iff,
    decide_eq_true_eq, ne, false_or] at h
  exact List.length_pos_iff_exists_mem.1 (by omega)

theorem busValue_co {cw : ControlWord} (n : Nibble) (s : State) (d : cw.asserts .co = true) :
    busValue n cw s = some (pcOnBus s.pc) := by
  simp [busValue, d]

/-- Without a driver the bus has no value (R21). -/
theorem busValue_of_no_driver {cw : ControlWord} (n : Nibble) (s : State)
    (d : ∀ d ∈ [Signal.co, .ro, .io, .ao, .eo], cw.asserts d = false) : busValue n cw s = none := by
  simp only [List.forall_mem_cons] at d
  simp [busValue, d]

section
variable {cw : ControlWord} (h : cw.wellFormed = true) (n : Nibble) (s : State)
include h

theorem busValue_ro (d : cw.asserts .ro = true) :
    busValue n cw s = some (s.mem.read s.mar.toNat) := by
  simp [busValue, d, driver_off h d (d' := .co)]

theorem busValue_io (d : cw.asserts .io = true) : busValue n cw s = some (operandOnBus n) := by
  simp [busValue, d, driver_off h d (d' := .co), driver_off h d (d' := .ro)]

theorem busValue_ao (d : cw.asserts .ao = true) : busValue n cw s = some s.a := by
  simp [busValue, d, driver_off h d (d' := .co), driver_off h d (d' := .ro),
    driver_off h d (d' := .io)]

theorem busValue_eo (d : cw.asserts .eo = true) :
    busValue n cw s = some (aluResult s.a s.b (cw.asserts .su)) := by
  simp [busValue, d, driver_off h d (d' := .co), driver_off h d (d' := .ro),
    driver_off h d (d' := .io), driver_off h d (d' := .ao)]

/-- Where a bus latch is asserted the bus has a value. -/
theorem busValue_of_latch {l : Signal} (hl : l ∈ cw.busLatches) : ∃ v, busValue n cw s = some v := by
  obtain ⟨d, hd⟩ := latch_has_driver h hl
  obtain ⟨m, hd⟩ := mem_drivers.1 hd
  simp only [List.mem_cons, List.not_mem_nil, or_false] at m
  rcases m with rfl | rfl | rfl | rfl | rfl
  · exact ⟨_, busValue_co n s hd⟩
  · exact ⟨_, busValue_ro h n s hd⟩
  · exact ⟨_, busValue_io h n s hd⟩
  · exact ⟨_, busValue_ao h n s hd⟩
  · exact ⟨_, busValue_eo h n s hd⟩

end

/-- A micro-step under a word that is not well formed is refused (R87). -/
theorem microStep_of_illFormed {m : MicroOp} (h : m.word.wellFormed = false) (n : Nibble) (s : State) :
    microStep n m s = .refused (.illFormedControlWord m.word) := by
  simp [microStep, h]

end Sys2Proof.Machine
end

