-- ==== Sys2Proof/Laws/Memory.lean ====
section
/-! SUPPORT. Memory: read after write, and the canonical form every operation keeps. -/

namespace Sys2Proof.Machine

theorem lookup_erase (m : Memory) (a x : Nat) :
    Memory.lookup (Memory.erase m a) x = if x = a then Config.unlistedByte else Memory.lookup m x := by
  induction m with
  | nil => simp [Memory.erase, Memory.lookup]
  | cons c m ih =>
    obtain ⟨k, v⟩ := c
    simp only [Memory.erase] at ih ⊢
    by_cases hk : k = a <;> by_cases hx : k = x <;> simp_all [Memory.lookup]

theorem lookup_place (m : Memory) (a x : Nat) (v : Byte) (fresh : ∀ c ∈ m, c.1 ≠ a) :
    Memory.lookup (Memory.place a v m) x = if x = a then v else Memory.lookup m x := by
  induction m with
  | nil => simp [Memory.place, Memory.lookup, eq_comm]
  | cons c m ih =>
    obtain ⟨k, w⟩ := c
    have ihm := ih (fun c hc => fresh c (List.mem_cons_of_mem _ hc))
    have hka : k ≠ a := fresh (k, w) List.mem_cons_self
    by_cases h : a < k
    · simp [Memory.place, h, Memory.lookup, eq_comm]
    · simp only [Memory.place, h, if_false, Memory.lookup, ihm]
      grind

/-- A read after a write: the written cell gives the value, every other cell what it gave (R31). -/
theorem read_write (m : Memory) (a x : Nat) (v : Byte) :
    (Memory.write m a v).read x = if x % memorySize = a % memorySize then v else m.read x := by
  unfold Memory.write Memory.read
  by_cases hv : v = Config.unlistedByte
  · simp [hv, lookup_erase]
  · rw [if_neg hv, lookup_place _ _ _ _ (by simp [Memory.erase])]
    grind [lookup_erase]

@[simp] theorem read_write_same (m : Memory) (a : Nat) (v : Byte) : (Memory.write m a v).read a = v := by
  simp [read_write]

theorem erase_wf {m : Memory} (h : m.wf) (a : Nat) : (Memory.erase m a).wf :=
  ⟨h.1.filter _, fun c hc => h.2 c (List.mem_of_mem_filter hc)⟩

theorem mem_place {m : Memory} {a : Nat} {v : Byte} {c : Host.Cell} :
    c ∈ Memory.place a v m ↔ c = (a, v) ∨ c ∈ m := by
  induction m with
  | nil => simp [Memory.place]
  | cons d m ih =>
    obtain ⟨k, w⟩ := d
    by_cases h : a < k <;> simp [Memory.place, h, ih]
    grind

theorem place_wf {m : Memory} (h : m.wf) {a : Nat} {v : Byte} (ha : a < memorySize)
    (hv : v ≠ Config.unlistedByte) (fresh : ∀ c ∈ m, c.1 ≠ a) : (Memory.place a v m).wf := by
  refine ⟨?_, fun c hc => ?_⟩
  · have sorted := h.1
    clear h
    induction m with
    | nil => simp [Memory.place]
    | cons d m ih =>
      obtain ⟨k, w⟩ := d
      have fresh' : ∀ c ∈ m, c.1 ≠ a := fun c hc => fresh c (List.mem_cons_of_mem _ hc)
      have hka : k ≠ a := fresh (k, w) List.mem_cons_self
      obtain ⟨hd, tl⟩ := List.pairwise_cons.1 sorted
      by_cases hlt : a < k
      · simp only [Memory.place, hlt, if_true, List.pairwise_cons]
        exact ⟨fun c hc => by
          rcases List.mem_cons.1 hc with rfl | hc
          · exact hlt
          · exact hlt.trans (hd c hc), hd, tl⟩
      · simp only [Memory.place, hlt, if_false, List.pairwise_cons]
        refine ⟨fun c hc => ?_, ih fresh' tl⟩
        rcases mem_place.1 hc with rfl | hc
        · simp only; omega
        · exact hd c hc
  · rcases mem_place.1 hc with rfl | hc
    · exact ⟨ha, hv⟩
    · exact h.2 c hc

/-- A write keeps the canonical form. -/
theorem write_wf {m : Memory} (h : m.wf) (a : Nat) (v : Byte) : (Memory.write m a v).wf := by
  unfold Memory.write
  split
  · exact erase_wf h _
  · rename_i hv
    exact place_wf (erase_wf h _) (Nat.mod_lt _ (by decide)) hv (by simp [Memory.erase])

theorem mem_ofBytes {a : Nat} {vs : List Byte} {c : Host.Cell} (h : c ∈ Memory.ofBytes a vs) :
    a ≤ c.1 ∧ c.1 < a + vs.length ∧ c.2 ≠ Config.unlistedByte := by
  induction vs generalizing a with
  | nil => simp [Memory.ofBytes] at h
  | cons v vs ih =>
    by_cases hv : v = Config.unlistedByte
    · have := ih (by simpa [Memory.ofBytes, hv] using h)
      simp only [List.length_cons]; exact ⟨by omega, by omega, this.2.2⟩
    · rw [Memory.ofBytes, if_neg hv, List.mem_cons] at h
      rcases h with rfl | h
      · simp [hv]
      · have := ih h
        simp only [List.length_cons]; exact ⟨by omega, by omega, this.2.2⟩

theorem ofBytes_sorted (a : Nat) (vs : List Byte) :
    (Memory.ofBytes a vs).Pairwise (fun c d => c.1 < d.1) := by
  induction vs generalizing a with
  | nil => simp [Memory.ofBytes]
  | cons v vs ih =>
    by_cases hv : v = Config.unlistedByte
    · simpa [Memory.ofBytes, hv] using ih (a + 1)
    · rw [Memory.ofBytes, if_neg hv, List.pairwise_cons]
      exact ⟨fun c hc => (mem_ofBytes hc).1, ih (a + 1)⟩

/-- The memory of an image is canonical. -/
theorem ofImage_wf (image : Image) : (Memory.ofImage image).wf := by
  refine ⟨ofBytes_sorted _ _, fun c hc => ?_⟩
  have h := mem_ofBytes hc
  simp only [Vector.length_toList] at h
  exact ⟨by simpa [memorySize] using h.2.1, h.2.2⟩

theorem lookup_ofBytes (a x : Nat) (vs : List Byte) :
    Memory.lookup (Memory.ofBytes a vs) x
      = if a ≤ x then (vs[x - a]?).getD Config.unlistedByte else Config.unlistedByte := by
  induction vs generalizing a with
  | nil => simp [Memory.ofBytes, Memory.lookup]
  | cons v vs ih =>
    by_cases hx : x = a
    · subst hx
      by_cases hv : v = Config.unlistedByte
      · simp [Memory.ofBytes, hv, ih]
      · simp [Memory.ofBytes, hv, Memory.lookup]
    · have step : Memory.lookup (Memory.ofBytes a (v :: vs)) x
          = Memory.lookup (Memory.ofBytes (a + 1) vs) x := by
        by_cases hv : v = Config.unlistedByte
        · simp [Memory.ofBytes, hv]
        · simp [Memory.ofBytes, hv, Memory.lookup, Ne.symm hx]
      rw [step, ih]
      by_cases hax : a < x
      · obtain ⟨d, rfl⟩ := Nat.exists_eq_add_of_lt hax
        simp [show a + d + 1 - (a + 1) = d by omega, show a + d + 1 - a = d + 1 by omega]
        intro h; omega
      · rw [if_neg (by omega), if_neg (by omega)]

/-- Every cell of an image's memory reads as the image gives it. -/
theorem read_ofImage (image : Image) (x : Nat) (h : x < 16) :
    (Memory.ofImage image).read x = image[x] := by
  unfold Memory.ofImage Memory.read
  rw [lookup_ofBytes]
  simp [memorySize, Nat.mod_eq_of_lt h, h]

/-- The blank image is the memory that lists nothing. -/
theorem ofImage_blank : Memory.ofImage Config.blankImage = [] := by decide

end Sys2Proof.Machine
end

