-- ==== Sys2Proof/Laws/PerInstr.lean ====
section
/-! SUPPORT. Statements per instruction: where its byte holds the opcode and the operand (R45). -/

namespace Sys2Proof.Laws.EncodeFields

/-- The instruction's byte has its opcode in bits 7:4 and its operand, or zero, in bits 3:0 (R45, R48). -/
def Statement (i : Instr) : Prop :=
  highNibble (encodeByte i) = i.opcode ∧ lowNibble (encodeByte i) = i.operand?.getD 0

theorem nop : Statement .nop := by unfold Statement; decide
theorem lda : ∀ n, Statement (.lda n) := by unfold Statement; decide
theorem add : ∀ n, Statement (.add n) := by unfold Statement; decide
theorem sub : ∀ n, Statement (.sub n) := by unfold Statement; decide
theorem sta : ∀ n, Statement (.sta n) := by unfold Statement; decide
theorem ldi : ∀ n, Statement (.ldi n) := by unfold Statement; decide
theorem jmp : ∀ n, Statement (.jmp n) := by unfold Statement; decide
theorem jc : ∀ n, Statement (.jc n) := by unfold Statement; decide
theorem jz : ∀ n, Statement (.jz n) := by unfold Statement; decide
theorem unused9 : Statement .unused9 := by unfold Statement; decide
theorem unusedA : Statement .unusedA := by unfold Statement; decide
theorem unusedB : Statement .unusedB := by unfold Statement; decide
theorem unusedC : Statement .unusedC := by unfold Statement; decide
theorem unusedD : Statement .unusedD := by unfold Statement; decide
theorem out : Statement .out := by unfold Statement; decide
theorem hlt : Statement .hlt := by unfold Statement; decide

end Sys2Proof.Laws.EncodeFields
end

