-- ==== Sys2Proof/Laws/Run.lean ====
section
/-! SUPPORT. Runs: one step unrolled, splitting, the host's run. -/

namespace Sys2Proof.Machine

theorem run_zero (s : State) : run 0 s = .next s := rfl

theorem run_succ_of_next {s s' : State} (h : step s = .next s') (k : Nat) :
    run (k + 1) s = run k s' := by
  simp [run, h]

theorem run_add {j : Nat} : ∀ {s s' : State}, run j s = .next s' → ∀ k, run (j + k) s = run k s' := by
  induction j with
  | zero =>
    intro s s' h k
    rw [Nat.zero_add, Host.Outcome.next.inj h]
  | succ j ih =>
    intro s s' h k
    rw [Nat.add_right_comm]
    cases hs : step s with
    | next t => rw [run_succ_of_next hs] at h ⊢; exact ih h k
    | fault f => simp [run, hs] at h
    | refused r => simp [run, hs] at h

/-- What one step keeps, every run keeps. -/
theorem run_keeps {P : State → Prop} (keeps : ∀ s s', P s → step s = .next s' → P s') :
    ∀ k s s', P s → run k s = .next s' → P s' := by
  intro k
  induction k with
  | zero => intro s s' hp h; exact Host.Outcome.next.inj h ▸ hp
  | succ k ih =>
    intro s s' hp h
    cases hs : step s with
    | next t => rw [run_succ_of_next hs] at h; exact ih t s' (keeps s t hp hs) h
    | fault f => simp [run, hs] at h
    | refused r => simp [run, hs] at h

/-- The model's run is the host's. -/
theorem run_eq_core_run : ∀ (k : Nat) (s : State), run k s = core.run k s := by
  intro k
  induction k with
  | zero => intro s; rfl
  | succ k ih =>
    intro s
    refine Eq.trans ?_ (Host.Core.run.eq_2 core s k).symm
    cases hs : step s with
    | next t =>
      have hc : core.step s = .next t := hs
      rw [run_succ_of_next hs, hc]
      exact ih t
    | fault f => exact nomatch f
    | refused r =>
      have hc : core.step s = .refused r := hs
      rw [hc]
      simp only [run, hs]
      rfl

end Sys2Proof.Machine
end

