-- ==== Sys2Proof/Laws/Words.lean ====
section
/-! SUPPORT. What each of the thirteen control words of the ROM does (spec/40_microcode_decoder.md R78). -/

namespace Sys2Proof.Machine

@[simp] theorem lowNibble_zext8 (n : Nibble) : lowNibble (zext8 n) = n := by
  revert n; decide

@[simp] theorem lowNibble_joinNibbles (hi lo : Nibble) : lowNibble (joinNibbles hi lo) = lo := by
  revert hi lo; decide

@[simp] theorem highNibble_joinNibbles (hi lo : Nibble) : highNibble (joinNibbles hi lo) = hi := by
  revert hi lo; decide

/-- What a word makes of a state: drive, then latch. -/
def runWord (n : Nibble) (cw : ControlWord) (last : Bool) (s : State) : State :=
  latch cw (busValue n cw s) last s

section
variable (n : Nibble) (last : Bool) (s : State)

@[simp] theorem word_none : runWord n 0x0000#16 last s = { s with t := nextMicroStep last s.t } := by
  simp [runWord, latch, busValue, ControlWord.asserts, Signal.bit, nextPc, nextCarry, nextZero,
    latchesFlags]

@[simp] theorem word_HLT :
    runWord n 0x0001#16 last s = { s with halted := true, t := nextMicroStep last s.t } := by
  simp [runWord, latch, busValue, ControlWord.asserts, Signal.bit, nextPc, nextCarry, nextZero,
    latchesFlags]

@[simp] theorem word_IO_MI :
    runWord n 0x0012#16 last s = { s with mar := n, t := nextMicroStep last s.t } := by
  simp [runWord, latch, busValue, ControlWord.asserts, Signal.bit, nextPc, nextCarry, nextZero,
    latchesFlags, addressFromBus, operandOnBus]

@[simp] theorem word_AO_RI :
    runWord n 0x0048#16 last s =
      { s with mem := s.mem.write s.mar.toNat s.a, t := nextMicroStep last s.t } := by
  simp [runWord, latch, busValue, ControlWord.asserts, Signal.bit, nextPc, nextCarry, nextZero,
    latchesFlags]

@[simp] theorem word_RO_AI :
    runWord n 0x0084#16 last s =
      { s with a := s.mem.read s.mar.toNat, t := nextMicroStep last s.t } := by
  simp [runWord, latch, busValue, ControlWord.asserts, Signal.bit, nextPc, nextCarry, nextZero,
    latchesFlags]

@[simp] theorem word_IO_AI :
    runWord n 0x0090#16 last s = { s with a := zext8 n, t := nextMicroStep last s.t } := by
  simp [runWord, latch, busValue, ControlWord.asserts, Signal.bit, nextPc, nextCarry, nextZero,
    latchesFlags, operandOnBus]

@[simp] theorem word_RO_BI :
    runWord n 0x0404#16 last s =
      { s with b := s.mem.read s.mar.toNat, t := nextMicroStep last s.t } := by
  simp [runWord, latch, busValue, ControlWord.asserts, Signal.bit, nextPc, nextCarry, nextZero,
    latchesFlags]

@[simp] theorem word_AO_OI :
    runWord n 0x0840#16 last s = { s with out := s.a, t := nextMicroStep last s.t } := by
  simp [runWord, latch, busValue, ControlWord.asserts, Signal.bit, nextPc, nextCarry, nextZero,
    latchesFlags]

@[simp] theorem word_RO_II_CE :
    runWord n 0x1024#16 last s =
      { s with ir := s.mem.read s.mar.toNat, pc := s.pc + 1, t := nextMicroStep last s.t } := by
  simp [runWord, latch, busValue, ControlWord.asserts, Signal.bit, nextPc, nextCarry, nextZero,
    latchesFlags]

@[simp] theorem word_CO_MI :
    runWord n 0x2002#16 last s = { s with mar := s.pc, t := nextMicroStep last s.t } := by
  simp [runWord, latch, busValue, ControlWord.asserts, Signal.bit, nextPc, nextCarry, nextZero,
    latchesFlags, addressFromBus, pcOnBus]

@[simp] theorem word_IO_JP :
    runWord n 0x4010#16 last s = { s with pc := n, t := nextMicroStep last s.t } := by
  simp [runWord, latch, busValue, ControlWord.asserts, Signal.bit, nextPc, nextCarry, nextZero,
    latchesFlags, addressFromBus, operandOnBus]

@[simp] theorem word_EO_AI_FI :
    runWord n 0x8180#16 last s =
      { s with
        a := aluResult s.a s.b false, cf := aluCarry s.a s.b false, zf := aluZero s.a s.b false
        t := nextMicroStep last s.t } := by
  simp [runWord, latch, busValue, ControlWord.asserts, Signal.bit, nextPc, nextCarry, nextZero,
    latchesFlags]

@[simp] theorem word_EO_BI_FI_SU :
    runWord n 0x8700#16 last s =
      { s with
        b := aluResult s.a s.b true, cf := aluCarry s.a s.b true, zf := aluZero s.a s.b true
        t := nextMicroStep last s.t } := by
  simp [runWord, latch, busValue, ControlWord.asserts, Signal.bit, nextPc, nextCarry, nextZero,
    latchesFlags]

end

/-- An instruction runs its row's word. -/
theorem exec_eq_runWord (i : Instr) (s : State) :
    exec i s = .next (runWord (i.operand?.getD s.operand) (rom i.opcode s.t s.cf s.zf).word
      (rom i.opcode s.t s.cf s.zf).last s) := exec_eq_latch i s

/-- A running machine runs the word its decoder gives. -/
theorem step_eq_runWord {s : State} (h : s.halted = false) :
    step s = .next (runWord s.operand s.microOp.word s.microOp.last s) := step_of_running h

end Sys2Proof.Machine
end

