-- ==== Sys2Proof/Tests/Slice0.lean ====
section
/-! SUPPORT. Tests from the vectors of spec/95_test_vectors.md (named beside each), the ill-formed terms
each check refuses, and the witnesses of the obligations' hypotheses. -/

namespace Sys2Proof.Tests
open Sys2Proof.Machine

/-- The next state, where there is one. -/
def stateOf : Result → Option State
  | .next s => some s
  | .fault _ => none
  | .refused _ => none

/-- A state at micro-step `t` with `ir` in `IR`. -/
def at' (t : MicroStep) (ir : Byte) : State := { State.reset with t := t, ir := ir }

/-- A boundary state about to fetch `byte` from cell `pc`. -/
def boundary (pc : Nibble) (byte : Byte) : State :=
  { State.reset with mem := Memory.write [] pc.toNat byte, pc := pc }

/-! ### Decoding: words written out from R47 -/

theorem test_decode_data_movement :
    decodeByte 0b00001111 = .nop ∧ decodeByte 0b00011110 = .lda 14 ∧ decodeByte 0b01001101 = .sta 13 ∧
    decodeByte 0b01011001 = .ldi 9 ∧ decodeByte 0b11101111 = .out := by decide
theorem test_decode_arithmetic :
    decodeByte 0b00101111 = .add 15 ∧ decodeByte 0b00110000 = .sub 0 := by decide
theorem test_decode_control :
    decodeByte 0b01100001 = .jmp 1 ∧ decodeByte 0b01110101 = .jc 5 ∧ decodeByte 0b10000100 = .jz 4 ∧
    decodeByte 0b11110000 = .hlt := by decide
theorem test_decode_unused :
    decodeByte 0b10010000 = .unused9 ∧ decodeByte 0b10100101 = .unusedA ∧
    decodeByte 0b10111011 = .unusedB ∧ decodeByte 0b11000000 = .unusedC ∧
    decodeByte 0b11011111 = .unusedD := by decide
theorem test_encode : encodeByte (.add 15) = 0x2F ∧ encodeByte .hlt = 0xF0 ∧ encodeByte (.ldi 0) = 0x50 := by
  decide
theorem test_decode_rejects_no_byte : decode [] = .error .noByte := by rfl
theorem test_table_word :
    decodeTableWord 8 0x1E = some (.lda 14) ∧ decodeTableWord 8 0xF0 = some .hlt ∧
    decodeTableWord 16 0x1E = none := by decide

/-! ### Well-formedness: each check refuses an ill-formed term (X5, X6 and an invented memory) -/

theorem smoke_two_drivers : ControlWord.wellFormed 0x0044 = false := by decide
theorem smoke_latch_without_driver : ControlWord.wellFormed 0x0080 = false := by decide
theorem smoke_word_list : wellFormedWords [0x2002, 0x0044] = false := by decide
theorem smoke_memory_not_rising : ¬ Memory.wf [(3, 1), (2, 1)] := by decide
theorem smoke_memory_unlisted_byte : ¬ Memory.wf [(3, 0)] := by decide
theorem smoke_memory_address : ¬ Memory.wf [(16, 1)] := by decide
/-- R47 is total, so no instruction term is ill formed. -/
theorem smoke_instr : Instr.wellFormed (.lda 15) = true := by decide

/-! ### Signals, memory, reset -/

/-- The values of R50. -/
theorem test_signal_values :
    ControlWord.ofSignals [.hlt] = 0x0001 ∧ ControlWord.ofSignals [.mi] = 0x0002 ∧
    ControlWord.ofSignals [.ro] = 0x0004 ∧ ControlWord.ofSignals [.ri] = 0x0008 ∧
    ControlWord.ofSignals [.io] = 0x0010 ∧ ControlWord.ofSignals [.ii] = 0x0020 ∧
    ControlWord.ofSignals [.ao] = 0x0040 ∧ ControlWord.ofSignals [.ai] = 0x0080 ∧
    ControlWord.ofSignals [.eo] = 0x0100 ∧ ControlWord.ofSignals [.su] = 0x0200 ∧
    ControlWord.ofSignals [.bi] = 0x0400 ∧ ControlWord.ofSignals [.oi] = 0x0800 ∧
    ControlWord.ofSignals [.ce] = 0x1000 ∧ ControlWord.ofSignals [.co] = 0x2000 ∧
    ControlWord.ofSignals [.jp] = 0x4000 ∧ ControlWord.ofSignals [.fi] = 0x8000 := by decide
theorem test_memory_write_unlisted_removes : Memory.write [(3, 7), (5, 1)] 3 0 = [(5, 1)] := by decide
theorem test_memory_address_wraps : Memory.write [] 17 9 = [(1, 9)] ∧ Memory.read [(1, 9)] 33 = 9 := by
  decide
theorem reset_inv : State.reset.Inv ∧ State.reset.FetchInv ∧ State.reset.mem.wf := by decide

/-! ### The ALU (95_test_vectors.md section 2.2) -/

theorem test_alu_add :
    aluResult 0xFF 0x01 false = 0x00 ∧ aluCarry 0xFF 0x01 false = true ∧ aluZero 0xFF 0x01 false = true ∧
    aluResult 0xC8 0x64 false = 0x2C ∧ aluCarry 0xC8 0x64 false = true ∧
    aluCarry 0xFF 0x00 false = false := by decide
theorem test_alu_sub :
    aluResult 0x03 0x05 true = 0xFE ∧ aluCarry 0x03 0x05 true = true ∧ aluZero 0x05 0x05 true = true ∧
    aluCarry 0x05 0x05 true = false ∧ aluResult 0x00 0x01 true = 0xFF := by decide

/-! ### One micro-step each (95_test_vectors.md section 2.3) -/

/-- M2 -/
theorem test_fetch0 :
    stateOf (step { State.reset with pc := 15 }) = some { State.reset with pc := 15, mar := 15, t := 1 } := by
  decide
/-- M4 -/
theorem test_fetch1_wraps :
    stateOf (step { boundary 15 0x32 with mar := 15, t := 1 }) =
      some { boundary 15 0x32 with ir := 0x32, pc := 0, mar := 15, t := 2 } := by decide
/-- M21 -/
theorem test_nop : stateOf (step (at' 2 0x00)) = some (at' 0 0x00) := by decide
/-- M5 -/
theorem test_lda_step2 : stateOf (step (at' 2 0x1E)) = some { at' 3 0x1E with mar := 14 } := by decide
/-- M6 -/
theorem test_lda_step3 :
    stateOf (step { at' 3 0x1E with mar := 14, mem := [(14, 0xC8)], a := 0x11 }) =
      some { at' 0 0x1E with mar := 14, mem := [(14, 0xC8)], a := 0xC8 } := by decide
/-- M7 -/
theorem test_add_step3 :
    stateOf (step { at' 3 0x2F with mar := 15, mem := [(15, 0x64)] }) =
      some { at' 4 0x2F with mar := 15, mem := [(15, 0x64)], b := 0x64 } := by decide
/-- M8 -/
theorem test_add_step4 :
    stateOf (step { at' 4 0x2F with a := 0xC8, b := 0x64, zf := true }) =
      some { at' 0 0x2F with a := 0x2C, b := 0x64, cf := true, zf := false } := by decide
/-- M10 -/
theorem test_sub_step4_borrow :
    stateOf (step { at' 4 0x3F with a := 0x03, b := 0x05 }) =
      some { at' 0 0x3F with a := 0x03, b := 0xFE, cf := true, zf := false } := by decide
/-- M11 -/
theorem test_sub_step4_equal :
    stateOf (step { at' 4 0x3F with a := 0x05, b := 0x05, cf := true }) =
      some { at' 0 0x3F with a := 0x05, b := 0x00, cf := false, zf := true } := by decide
/-- M12 -/
theorem test_sta_step3 :
    stateOf (step { at' 3 0x4D with mar := 13, a := 0x2C }) =
      some { at' 0 0x4D with mar := 13, a := 0x2C, mem := [(13, 0x2C)] } := by decide
/-- M13 -/
theorem test_ldi_keeps_flags :
    stateOf (step { at' 2 0x59 with a := 0xF0, cf := true, zf := true }) =
      some { at' 0 0x59 with a := 0x09, cf := true, zf := true } := by decide
/-- M14 -/
theorem test_jmp : stateOf (step { at' 2 0x6E with pc := 2 }) = some { at' 0 0x6E with pc := 14 } := by
  decide
/-- M15, M16 -/
theorem test_jc :
    stateOf (step { at' 2 0x75 with pc := 3, cf := true }) = some { at' 0 0x75 with pc := 5, cf := true } ∧
    stateOf (step { at' 2 0x75 with pc := 3, zf := true }) = some { at' 0 0x75 with pc := 3, zf := true } := by
  decide
/-- M17, M18 -/
theorem test_jz :
    stateOf (step { at' 2 0x84 with pc := 3, zf := true }) = some { at' 0 0x84 with pc := 4, zf := true } ∧
    stateOf (step { at' 2 0x84 with pc := 3, cf := true }) = some { at' 0 0x84 with pc := 3, cf := true } := by
  decide
/-- M19 -/
theorem test_out :
    stateOf (step { at' 2 0xE0 with a := 0x2C }) = some { at' 0 0xE0 with a := 0x2C, out := 0x2C } := by
  decide
/-- M20 -/
theorem test_hlt :
    stateOf (step { at' 2 0xF0 with pc := 2 }) = some { at' 0 0xF0 with pc := 2, halted := true } ∧
    (observe { at' 2 0xF0 with pc := 2 }).halted = true := by decide
/-- M22 -/
theorem test_unused : stateOf (step (at' 2 0x9A)) = some (at' 0 0x9A) := by decide
/-- M23 -/
theorem test_halted :
    stateOf (step { at' 2 0x1E with halted := true }) = some { at' 2 0x1E with halted := true } ∧
    observe { at' 2 0x1E with halted := true } = ⟨0x0000, none, none, true⟩ := by decide

/-! ### The transfer stage alone (X1 to X7) -/

theorem test_x1_jump_wins :
    (stateOf (transfer ⟨0x5010, false⟩ { at' 0 0x03 with pc := 9 })).map State.pc = some 3 := by decide
theorem test_x2_no_fi :
    (stateOf (transfer ⟨0x0180, false⟩ { at' 0 0 with a := 1, b := 2, cf := true, zf := true })).map
      (fun s => (s.a, s.cf, s.zf)) = some (3, true, true) := by decide
theorem test_x3_fi_without_eo :
    (stateOf (transfer ⟨0x8000, false⟩ { at' 0 0 with cf := true })).map (fun s => (s.cf, s.zf)) =
      some (true, false) := by decide
theorem test_x4_driver_alone :
    stateOf (transfer ⟨0x0040, true⟩ { at' 1 0 with a := 0x12 }) = some { at' 0 0 with a := 0x12 } := by
  decide
theorem test_x5_two_drivers :
    transfer ⟨0x0044, false⟩ State.reset = .refused (.illFormedControlWord 0x0044) := by rfl
theorem test_x6_latch_alone :
    transfer ⟨0x0080, false⟩ State.reset = .refused (.illFormedControlWord 0x0080) := by rfl
theorem test_x7_old_mar :
    (stateOf (transfer ⟨0x0006, false⟩ { at' 0 0 with mar := 2, mem := [(2, 0x0B), (11, 0x77)] })).map
      State.mar = some 11 := by decide

/-! ### Placing an instruction -/

theorem test_withFetchWord :
    stateOf (step (State.reset.withFetchWord 8 0x1E)) =
      some { State.reset with mem := [(0, 0x1E)], ir := 0x1E, pc := 1, mar := 14, t := 3 } := by decide

/-! ### Witnesses: a state and operands that meet each obligation's hypotheses, clause by clause -/

theorem witness_IgnoredLowNibbleReachesNothing :
    ((0 : Nibble) = 0 ∨ 9 ≤ (0 : Nibble).toNat) ∧ ((9 : Nibble) = 0 ∨ 9 ≤ (9 : Nibble).toNat) ∧
    ((15 : Nibble) = 0 ∨ 9 ≤ (15 : Nibble).toNat) := by decide
theorem witness_OpcodeTableMatchAndMask :
    ∀ k : Fin 16, ∃ b : Byte, b &&& 0xF0 = BitVec.ofNat 8 (16 * k.val) :=
  fun k => ⟨BitVec.ofNat 8 (16 * k.val), by revert k; decide⟩
theorem witness_StepRunsTheDecodedInstruction :
    (at' 2 0x1E).halted = false ∧ (boundary 15 0x1E).AtBoundary ∧
    decode [(boundary 15 0x1E).mem.read (boundary 15 0x1E).pc.toNat] = .ok (.lda 14, []) := by
  exact ⟨by decide, by decide, rfl⟩
theorem witness_FetchStepZero : (at' 0 0).halted = false ∧ (at' 0 0).t = 0 := by decide
theorem witness_FetchStepOne : (at' 1 0).halted = false ∧ (at' 1 0).t = 1 ∧ (at' 0 0).AtBoundary := by decide
theorem witness_FetchOfEveryInstruction : (boundary 15 0xFF).AtBoundary := by decide

/-- A running state at micro-step `t` with opcode `op` in `IR`: what the ROM-row obligations assume. -/
abbrev RowHyp (s : State) (op : Nibble) (t : MicroStep) : Prop :=
  s.halted = false ∧ s.opcode = op ∧ s.t = t

theorem witness_NopRow : RowHyp (at' 2 0x00) 0 2 := by decide
theorem witness_LdaRow : RowHyp (at' 2 0x1F) 1 2 ∧ RowHyp (at' 3 0x1F) 1 3 := by decide
theorem witness_AddRow :
    RowHyp (at' 2 0x2F) 2 2 ∧ RowHyp (at' 3 0x2F) 2 3 ∧ RowHyp (at' 4 0x2F) 2 4 := by decide
theorem witness_SubRow :
    RowHyp (at' 2 0x30) 3 2 ∧ RowHyp (at' 3 0x30) 3 3 ∧ RowHyp (at' 4 0x30) 3 4 := by decide
theorem witness_StaRow : RowHyp (at' 2 0x4F) 4 2 ∧ RowHyp (at' 3 0x4F) 4 3 := by decide
theorem witness_LdiRow : RowHyp (at' 2 0x5F) 5 2 := by decide
theorem witness_JmpRow : RowHyp (at' 2 0x6F) 6 2 := by decide
theorem witness_JcRow : RowHyp (at' 2 0x7F) 7 2 := by decide
theorem witness_JzRow : RowHyp (at' 2 0x8F) 8 2 := by decide
theorem witness_UnusedRows :
    (9 ≤ (9 : Nibble).toNat ∧ (9 : Nibble).toNat ≤ 13) ∧ (9 ≤ (13 : Nibble).toNat ∧ (13 : Nibble).toNat ≤ 13) ∧
    RowHyp (at' 2 0x90) 9 2 ∧ RowHyp (at' 2 0xDF) 13 2 := by decide
theorem witness_OutRow : RowHyp (at' 2 0xE0) 14 2 := by decide
theorem witness_HltRow : RowHyp (at' 2 0xF0) 15 2 := by decide

/-- A boundary state whose next byte is `op`, `n`: what the whole-instruction obligations assume. -/
abbrev InstrHyp (s : State) (op n : Nibble) : Prop :=
  s.AtBoundary ∧ s.mem.read s.pc.toNat = joinNibbles op n

theorem witness_NopInstruction : InstrHyp (boundary 15 0x0B) 0 11 := by decide
theorem witness_LdaInstruction : InstrHyp (boundary 15 0x1F) 1 15 := by decide
theorem witness_AddInstruction :
    InstrHyp (boundary 4 0x24) 2 4 ∧ (boundary 4 0x24).mem.read (4 : Nibble).toNat = 0x24 := by decide
theorem witness_SubInstruction :
    InstrHyp (boundary 15 0x30) 3 0 ∧ (boundary 15 0x30).mem.read (0 : Nibble).toNat = 0x00 := by decide
theorem witness_StaInstruction : InstrHyp (boundary 3 0x43) 4 3 := by decide
theorem witness_LdiInstruction : InstrHyp (boundary 2 0x59) 5 9 := by decide
theorem witness_JmpInstruction : InstrHyp (boundary 6 0x66) 6 6 := by decide
theorem witness_JcInstruction : InstrHyp (boundary 2 0x75) 7 5 := by decide
theorem witness_JzInstruction : InstrHyp (boundary 2 0x84) 8 4 := by decide
theorem witness_UnusedInstructions :
    InstrHyp (boundary 14 0x9A) 9 10 ∧ InstrHyp (boundary 0 0xD0) 13 0 := by decide
theorem witness_OutInstruction : InstrHyp (boundary 0 0xEF) 14 15 := by decide
theorem witness_HltInstruction : InstrHyp (boundary 15 0xF0) 15 0 := by decide

theorem witness_MicroStepIsDecodeDriveLatch : (at' 4 0x3F).halted = false := by decide
theorem witness_HaltedMachineStaysHalted : ({ at' 0 0xF0 with halted := true } : State).halted = true := by
  decide
theorem witness_StepKeepsStateInvariant :
    (at' 2 0xF0).Inv ∧ ∃ s', step (at' 2 0xF0) = .next s' := ⟨by decide, _, rfl⟩
theorem witness_ReachableStatesMeetInvariant : (State.resetWith Config.blankImage).Reachable :=
  ⟨Config.blankImage, 0, rfl⟩
theorem witness_StepKeepsFetchInvariant :
    ({ at' 2 0xF0 with mem := [(15, 0xF0)], mar := 15, pc := 0 } : State).FetchInv ∧
    ∃ s', step { at' 2 0xF0 with mem := [(15, 0xF0)], mar := 15, pc := 0 } = .next s' :=
  ⟨by decide, _, rfl⟩
/-- The image with HLT in cell 0, run for three micro-steps. -/
theorem witness_EndOfRun :
    ∃ s : State, s.Reachable ∧ s.halted = true :=
  ⟨{ State.reset with mem := [(0, 0xF0)], ir := 0xF0, pc := 1, halted := true },
    ⟨Config.blankImage.set 0 0xF0, 3, rfl⟩, rfl⟩
theorem witness_StepKeepsMemoryForm :
    Memory.wf [(3, 0x43)] ∧ ∃ s', step { at' 3 0x43 with mem := [(3, 0x43)], mar := 3 } = .next s' :=
  ⟨by decide, _, rfl⟩
theorem witness_EqualReadsGiveEqualMemories :
    Memory.wf [(0, 1), (15, 2)] ∧ Memory.wf (Memory.write [(15, 2)] 0 1) ∧
    ∀ x : Nibble, Memory.read [(0, 1), (15, 2)] x.toNat = (Memory.write [(15, 2)] 0 1).read x.toNat := by
  decide
theorem witness_MicroStepCounter :
    (at' 4 0x2F).halted = false ∧ (∃ s', step (at' 4 0x2F) = .next s') ∧
    InstrHyp (boundary 0 0x2F) 2 15 ∧ InstrHyp (boundary 0 0x1F) 1 15 ∧ InstrHyp (boundary 0 0xF0) 15 0 :=
  ⟨by decide, ⟨_, rfl⟩, by decide, by decide, by decide⟩
theorem witness_RomHoldsThirteenWords : (3 : Nat) < (4 : MicroStep).toNat ∧ (2 : Nat) < (3 : MicroStep).toNat ∧
    (4 : Nat) < (7 : MicroStep).toNat := by decide
theorem witness_DecoderReadsOnlyOpcodeCounterFlags :
    (at' 2 0x1E).halted = false ∧ (at' 2 0x1F).halted = false ∧ (at' 2 0x1E).opcode = (at' 2 0x1F).opcode ∧
    (at' 2 0x1E).t = (at' 2 0x1F).t ∧ (at' 2 0x1E).cf = (at' 2 0x1F).cf ∧ (at' 2 0x1E).zf = (at' 2 0x1F).zf := by
  decide
theorem witness_FlagsWrittenOnlyWithAluOutAndFlagsIn :
    (∃ s', transfer ⟨0x8180, true⟩ State.reset = .next s') ∧
    ControlWord.asserts 0x8180 .eo = true ∧ ControlWord.asserts 0x8180 .fi = true ∧
    (∃ s', transfer ⟨0x0180, true⟩ State.reset = .next s') ∧ ControlWord.asserts 0x0180 .fi = false ∧
    (∃ s', step (at' 3 0x2F) = .next s') ∧
    ¬(((at' 3 0x2F).opcode = 2 ∨ (at' 3 0x2F).opcode = 3) ∧ (at' 3 0x2F).t = 4) :=
  ⟨⟨_, rfl⟩, by decide, by decide, ⟨_, rfl⟩, by decide, ⟨_, rfl⟩, by decide⟩
theorem witness_PcStage :
    (∃ s', transfer ⟨0x5010, true⟩ State.reset = .next s') ∧ ControlWord.asserts 0x5010 .jp = true ∧
    ControlWord.asserts 0x5010 .ce = true ∧
    (∃ s', transfer ⟨0x1024, true⟩ State.reset = .next s') ∧ ControlWord.asserts 0x1024 .jp = false ∧
    ControlWord.asserts 0x1024 .ce = true ∧
    (∃ s', transfer ⟨0x0000, true⟩ State.reset = .next s') ∧ ControlWord.asserts 0x0000 .ce = false ∧
    (at' 1 0).t = 1 ∧ ∃ s', step (at' 1 0) = .next s' :=
  ⟨⟨_, rfl⟩, by decide, by decide, ⟨_, rfl⟩, by decide, by decide, ⟨_, rfl⟩, by decide, by decide, _, rfl⟩
/-- One word for each clause: a driver, a latch, both of EO's operations, CE with and without JP. -/
theorem witness_TransferLatchesTheBus :
    wellFormedWords [0x2002, 0x0006, 0x4010, 0x0048, 0x8180, 0x8700, 0x5010, 0x1000] = true := by
  decide
theorem witness_TransferLatchesTheBus_drivers :
    ControlWord.drivers 0x2002 = [.co] ∧ ControlWord.drivers 0x0006 = [.ro] ∧
    ControlWord.drivers 0x4010 = [.io] ∧ ControlWord.drivers 0x0048 = [.ao] ∧
    ControlWord.drivers 0x8180 = [.eo] ∧ ControlWord.asserts 0x8180 .su = false ∧
    ControlWord.drivers 0x8700 = [.eo] ∧ ControlWord.asserts 0x8700 .su = true ∧
    ControlWord.drivers 0x1000 = [] := by decide
theorem witness_TransferLatchesTheBus_latches :
    ControlWord.busLatches 0x0006 = [.mi] ∧ ControlWord.busLatches 0x0048 = [.ri] ∧
    ControlWord.busLatches 0x8180 = [.ai] ∧ ControlWord.busLatches 0x8700 = [.bi] ∧
    ControlWord.busLatches 0x5010 = [.jp] ∧ ControlWord.asserts 0x5010 .ce = true ∧
    ControlWord.busLatches 0x1000 = [] ∧ ControlWord.asserts 0x1000 .ce = true := by decide
theorem witness_IllFormedWordsAreRefused :
    Signal.ro ≠ Signal.ao ∧ ControlWord.asserts 0x0044 .ro = true ∧ ControlWord.asserts 0x0044 .ao = true ∧
    ControlWord.asserts 0x0080 .ai = true ∧
    ∀ d ∈ [Signal.co, .ro, .io, .ao, .eo], ControlWord.asserts 0x0080 d = false := by decide
theorem witness_DrivingAloneChangesNothing :
    ControlWord.wellFormed 0x0040 = true ∧
    (∀ l ∈ [Signal.mi, .ri, .ii, .ai, .bi, .oi, .jp, .ce, .hlt], ControlWord.asserts 0x0040 l = false) ∧
    (ControlWord.asserts 0x0040 .eo && ControlWord.asserts 0x0040 .fi) = false := by decide
theorem witness_MemoryWrittenOnlyByRamIn :
    (∃ s', transfer ⟨0x0048, true⟩ State.reset = .next s') ∧ ControlWord.asserts 0x0048 .ri = true ∧
    (∃ s', transfer ⟨0x0084, true⟩ State.reset = .next s') ∧ ControlWord.asserts 0x0084 .ri = false ∧
    ∃ s', step (at' 3 0x4D) = .next s' :=
  ⟨⟨_, rfl⟩, by decide, ⟨_, rfl⟩, by decide, _, rfl⟩
theorem witness_MemoryReadByRamOut :
    ControlWord.wellFormed 0x0084 = true ∧ ControlWord.asserts 0x0084 .ro = true ∧
    ControlWord.asserts 0x0040 .ro = false ∧
    (at' 3 0x1E).microOp.word.asserts .ro = true ∧ ∃ s', step (at' 3 0x1E) = .next s' :=
  ⟨by decide, by decide, by decide, by decide, _, rfl⟩
theorem witness_StoreIsSeenByTheNextFetch : InstrHyp (boundary 15 0x40) 4 0 := by decide
theorem witness_BIsInvisibleAcrossInstructions : (boundary 0 0x2F).AtBoundary := by decide
theorem witness_HltSignalOnlyHalts :
    ControlWord.wellFormed 0x0001 = true ∧ ControlWord.asserts 0x0001 .hlt = true ∧
    (rom 15 2 false false).word.asserts .hlt = true := by decide
theorem witness_FrameOfEveryInstruction :
    (∃ s', exec (.lda 14) (at' 3 0x1E) = .next s') ∧ (∃ s', exec (.sta 13) (at' 3 0x4D) = .next s') ∧
    ∃ s', exec .hlt (at' 2 0xF0) = .next s' :=
  ⟨⟨_, rfl⟩, ⟨_, rfl⟩, _, rfl⟩

end Sys2Proof.Tests
end

section
/-! SUPPORT. Proofs about memory: the one write and the one read (spec/20_memory.md R30, R31). -/

namespace Sys2Proof.Machine

/-! ### Rules for memory reads -/

/-- Addresses wrap at a read (R30). -/
theorem read_mod (m : Memory) (x : Nat) : m.read (x % 16) = m.read x := by
  simp [Memory.read, memorySize]

/-- A read after a write at a 4-bit address, which needs no wrap of its own. -/
theorem read_write_nibble (m : Memory) (a : Nibble) (x : Nat) (v : Byte) :
    (m.write a.toNat v).read x = if x % 16 = a.toNat then v else m.read x := by
  rw [read_write, memorySize, Nat.mod_eq_of_lt a.isLt]

/-! ### What the latch and the bus do with memory -/

/-- Without RAM-in the latch part keeps memory. -/
theorem latch_mem_of_ri_off {cw : ControlWord} (h : cw.asserts .ri = false) (bus : Option Byte)
    (last : Bool) (s : State) : (latch cw bus last s).mem = s.mem := by
  rw [latch_mem, h, latched_false]

/-- With RAM-in the latch part writes the bus value to the cell pre-step `MAR` selects. -/
theorem latch_read_of_ri {cw : ControlWord} (h : cw.asserts .ri = true) (v : Byte) (last : Bool)
    (s : State) (x : Nat) : (latch cw (some v) last s).mem.read x =
      if x % 16 = s.mar.toNat then v else s.mem.read x := by
  rw [latch_mem, h, latched_true, read_write_nibble]

/-- Under a word with no latch, PC or halt signal and no flag latch only `T` changes. -/
theorem latch_of_no_latch {cw : ControlWord}
    (h : ∀ l ∈ [Signal.mi, .ri, .ii, .ai, .bi, .oi, .jp, .ce, .hlt], cw.asserts l = false)
    (hf : latchesFlags cw = false) (bus : Option Byte) (last : Bool) (s : State) :
    latch cw bus last s = { s with t := nextMicroStep last s.t } := by
  simp only [List.forall_mem_cons] at h
  simp [latch, nextPc, nextCarry, nextZero, h, hf]

/-- Without RAM-out the bus does not depend on memory. -/
theorem busValue_with_mem {cw : ControlWord} (h : cw.asserts .ro = false) (n : Nibble) (s : State)
    (mem' : Memory) : busValue n cw { s with mem := mem' } = busValue n cw s := by
  simp only [busValue, h, Bool.false_eq_true, if_false]

/-! ### Memory under the ROM -/

/-- The decoder gives RAM-in at step 3 of STA and nowhere else. -/
theorem microOp_asserts_ri (s : State) :
    s.microOp.word.asserts .ri = true ↔ s.opcode = 4 ∧ s.t = 3 := by
  rw [State.microOp, rom_asserts_ri, decide_eq_true_iff]

/-- Where the decoder gives RAM-in the bus is `A`. -/
theorem microOp_bus_of_ri {s : State} (h : s.opcode = 4 ∧ s.t = 3) (n : Nibble) :
    busValue n s.microOp.word s = some s.a := by
  have ao : s.microOp.word.asserts .ao = true := by
    rw [State.microOp, rom_asserts_ao]
    exact decide_eq_true (.inl h)
  exact busValue_ao (rom_wellFormed ..) n s ao

/-- No word of the ROM asserts RAM-out and RAM-in together. -/
theorem microOp_ri_off_of_ro {s : State} (h : s.microOp.word.asserts .ro = true) :
    s.microOp.word.asserts .ri = false := by
  rw [State.microOp, rom_asserts_ro, decide_eq_true_iff] at h
  refine Bool.eq_false_iff.2 fun ri => ?_
  obtain ⟨hop, ht⟩ := (microOp_asserts_ri s).1 ri
  simp [hop, ht] at h

/-- A step whose word does not assert RAM-in keeps memory; so does a halted machine. -/
theorem step_mem_of_ri_off {s s' : State} (h : step s = .next s')
    (ri : s.halted = false → s.microOp.word.asserts .ri = false) : s'.mem = s.mem := by
  obtain ⟨-, rfl⟩ | ⟨running, rfl⟩ := step_next h
  · rfl
  · exact latch_mem_of_ri_off (ri running) ..

/-- A running step 3 of STA stores `A` in the cell pre-step `MAR` selects. -/
theorem step_read_of_sta {s s' : State} (h : step s = .next s') (running : s.halted = false)
    (sta : s.opcode = 4 ∧ s.t = 3) (x : Nat) :
    s'.mem.read x = if x % 16 = s.mar.toNat then s.a else s.mem.read x := by
  rw [step_of_running running, microOp_bus_of_ri sta] at h
  rw [← Host.Outcome.next.inj h]
  exact latch_read_of_ri ((microOp_asserts_ri s).2 sta) ..

/-! ### The obligations of spec/20_memory.md -/

/-- Settles O54. An accepted word has a bus value where it asserts RAM-in, and the latch part writes it;
under the ROM the steps are either step 3 of STA, whose bus is `A`, or leave memory. -/
theorem memoryWrittenOnlyByRamIn : Obligations.MemoryWrittenOnlyByRamIn := by
  refine ⟨fun m s s' h => ?_, fun op t cf zf => ?_, fun s s' h x => ?_⟩
  · obtain ⟨wf, rfl⟩ := microStep_next h
    refine ⟨fun ri => latch_mem_of_ri_off ri .., fun ri => ?_⟩
    obtain ⟨v, bus⟩ := busValue_of_latch wf s.operand s (mem_busLatches.2 ⟨by simp, ri⟩)
    exact ⟨v, bus, fun x => bus ▸ latch_read_of_ri ri v m.last s x⟩
  · rw [rom_asserts_ri, decide_eq_true_iff]
  · by_cases store : s.halted = false ∧ s.opcode = 4 ∧ s.t = 3
    · obtain ⟨running, sta⟩ := store
      simp only [step_read_of_sta h running sta, running, sta, true_and]
    · have kept : s'.mem = s.mem := step_mem_of_ri_off h fun running =>
        Bool.eq_false_iff.2 fun ri => store ⟨running, (microOp_asserts_ri s).1 ri⟩
      rw [kept, if_neg fun ⟨running, op, t, _⟩ => store ⟨running, op, t⟩]

/-- Settles O55. RAM-out alone is a word without a latch, and no word of the ROM has RAM-in beside it. -/
theorem memoryReadByRamOut : Obligations.MemoryReadByRamOut := by
  refine ⟨fun m x => (read_mod m x).symm, fun m s wf ro => busValue_ro wf _ s ro,
    fun cw s mem' ro => busValue_with_mem ro _ s mem', fun last s => ?_, fun s s' ro h => ?_⟩
  · have wf : (ControlWord.ofSignals [.ro]).wellFormed = true := by decide
    rw [transfer, microStep_of_wellFormed wf,
      latch_of_no_latch (cw := .ofSignals [.ro]) (by decide) (by decide), nextMicroStep]
  · exact step_mem_of_ri_off h fun _ => microOp_ri_off_of_ro ro

end Sys2Proof.Machine
end

section
/-! SUPPORT. The rows of the ROM (spec/40_microcode_decoder.md R60 to R78): the control words written out,
the ALU in integers, what `exec` answers at each step of a row, and what that says of `step`, `observe`
and `run`. -/

namespace Sys2Proof.Machine

/-! ### The control words of the table R64, in hexadecimal -/

section
variable (cf zf : Bool)

theorem rom_fetch_step0 (op : Nibble) : rom op 0 cf zf = ⟨0x2002, false⟩ := by
  revert op cf zf; decide
theorem rom_fetch_step1 (op : Nibble) : rom op 1 cf zf = ⟨0x1024, false⟩ := by
  revert op cf zf; decide
/-- LDA, ADD, SUB and STA put their operand in `MAR` first. -/
theorem rom_address_step2 {op : Nibble} (h : op = 1 ∨ op = 2 ∨ op = 3 ∨ op = 4) :
    rom op 2 cf zf = ⟨0x0012, false⟩ := by
  revert op cf zf; decide
/-- NOP and the unused opcodes assert nothing. -/
theorem rom_idle_step2 {op : Nibble} (h : op = 0 ∨ 9 ≤ op.toNat ∧ op.toNat ≤ 13) :
    rom op 2 cf zf = ⟨0x0000, true⟩ := by
  revert op cf zf; decide
theorem rom_lda_step3 : rom 1 3 cf zf = ⟨0x0084, true⟩ := by revert cf zf; decide
/-- ADD and SUB load `B` from memory. -/
theorem rom_loadB_step3 {op : Nibble} (h : op = 2 ∨ op = 3) : rom op 3 cf zf = ⟨0x0404, false⟩ := by
  revert op cf zf; decide
theorem rom_add_step4 : rom 2 4 cf zf = ⟨0x8180, true⟩ := by revert cf zf; decide
theorem rom_sub_step4 : rom 3 4 cf zf = ⟨0x8700, true⟩ := by revert cf zf; decide
theorem rom_sta_step3 : rom 4 3 cf zf = ⟨0x0048, true⟩ := by revert cf zf; decide
theorem rom_ldi_step2 : rom 5 2 cf zf = ⟨0x0090, true⟩ := by revert cf zf; decide
theorem rom_jmp_step2 : rom 6 2 cf zf = ⟨0x4010, true⟩ := by revert cf zf; decide
theorem rom_jc_step2 : rom 7 2 cf zf = ⟨if cf then 0x4010 else 0x0000, true⟩ := by
  revert cf zf; decide
theorem rom_jz_step2 : rom 8 2 cf zf = ⟨if zf then 0x4010 else 0x0000, true⟩ := by
  revert cf zf; decide
theorem rom_out_step2 : rom 14 2 cf zf = ⟨0x0840, true⟩ := by revert cf zf; decide
theorem rom_hlt_step2 : rom 15 2 cf zf = ⟨0x0001, true⟩ := by revert cf zf; decide

end

/-! ### What the ALU and the nibbles compute, in integers -/

/-- The operand on the bus is `IR & 0x0F` (R46). -/
theorem operandOnBus_operand (s : State) : operandOnBus s.operand = s.ir &&& 0x0F := by
  have mask : ∀ b : Byte, operandOnBus (lowNibble b) = b &&& 0x0F := by decide
  exact mask s.ir

/-- Under Instruction-out the bus is `IR & 0x0F`. -/
theorem busValue_operand {cw : ControlWord} (s : State) (wf : cw.wellFormed = true)
    (io : cw.asserts .io = true) : busValue s.operand cw s = some (s.ir &&& 0x0F) := by
  rw [busValue_io wf _ _ io, operandOnBus_operand]

/-- The high nibble is `IR >> 4` (R45). -/
theorem highNibble_toNat (b : Byte) : (highNibble b).toNat = b.toNat / 16 := by
  have := b.isLt
  simp only [highNibble, BitVec.extractLsb'_toNat, Nat.shiftRight_eq_div_pow]
  omega

/-- `PC + 1` wraps modulo 16 (R101). -/
theorem nibble_succ_toNat (n : Nibble) : (n + 1).toNat = (n.toNat + 1) % 16 := BitVec.toNat_add n 1

theorem nibble_succ_eq_ofNat (n : Nibble) : n + 1 = BitVec.ofNat 4 ((n.toNat + 1) % 16) :=
  BitVec.eq_of_toNat_eq (by simp [BitVec.toNat_add])

theorem ofNat_emod_byte (x : Nat) : BitVec.ofNat 8 (x % 256) = BitVec.ofNat 8 x :=
  BitVec.eq_of_toNat_eq (by simp)

theorem ofInt_emod_byte (z : Int) : BitVec.ofInt 8 (z % 256) = BitVec.ofInt 8 z :=
  BitVec.eq_of_toNat_eq (by simp)

theorem aluResult_add (a b : Byte) : aluResult a b false = BitVec.ofNat 8 (a.toNat + b.toNat) := by
  simp [aluResult, BitVec.ofNat_add]

theorem aluResult_sub (a b : Byte) :
    aluResult a b true = BitVec.ofInt 8 ((a.toNat : Int) - b.toNat) := by
  apply BitVec.eq_of_toNat_eq
  simp only [aluResult, if_true, BitVec.toNat_sub, BitVec.toNat_ofInt]
  omega

theorem aluZero_add (a b : Byte) :
    aluZero a b false = decide ((a.toNat + b.toNat) % 256 = 0) := by
  simp [aluZero, aluResult, ← BitVec.toNat_inj]

/-- The difference is zero exactly when the operands are equal (R108). -/
theorem aluZero_sub (a b : Byte) : aluZero a b true = decide (a = b) := by
  have zero : a - b = 0 ↔ a = b := sub_eq_zero
  simp [aluZero, aluResult, ← zero]

/-- Two bytes are equal exactly when their difference is a multiple of 256. -/
theorem eq_iff_sub_emod (a b : Byte) : a = b ↔ ((a.toNat : Int) - b.toNat) % 256 = 0 := by
  have := a.isLt
  have := b.isLt
  rw [← BitVec.toNat_inj]
  omega

/-! ### An instruction at one step of its row -/

/-- A micro-step of `i` leaves what the word of its row at `T` makes of the state. -/
theorem exec_of_rom {i : Instr} {s s' : State} {t : MicroStep} {cw : ControlWord} {last : Bool}
    (ht : s.t = t) (word : rom i.opcode t s.cf s.zf = ⟨cw, last⟩)
    (result : runWord (i.operand?.getD s.operand) cw last s = s') : exec i s = .next s' := by
  rw [exec_eq_runWord, ht, word, result]

/-- What a running machine reports at a step of a row. -/
theorem observe_of_rom {s : State} {op : Nibble} {t : MicroStep} {cw : ControlWord} {last : Bool}
    (running : s.halted = false) (hop : s.opcode = op) (ht : s.t = t)
    (word : rom op t s.cf s.zf = ⟨cw, last⟩) : observe s = observeWord cw s := by
  simp [observe, running, State.microOp, hop, ht, word]

/-- The reported bus is the value the word's driver gives. -/
theorem observe_bus_of_rom {s : State} {op : Nibble} {t : MicroStep} {cw : ControlWord} {last : Bool}
    {bus : Option Byte} (running : s.halted = false) (hop : s.opcode = op) (ht : s.t = t)
    (word : rom op t s.cf s.zf = ⟨cw, last⟩) (value : busValue s.operand cw s = bus) :
    (observe s).bus = bus := by
  rw [observe_of_rom running hop ht word, ← value]; rfl

/-- A running machine runs the instruction in `IR`. -/
theorem step_of_decoded {s : State} (running : s.halted = false) :
    step s = exec (decodeByte s.ir) s := by
  simp [step, running]

/-- A running machine whose `IR` holds the opcode and the operand of `i` steps to what `exec i` answers. -/
theorem step_of_exec {s s' : State} {i : Instr} (running : s.halted = false)
    (h : exec i s = .next s') (hop : s.opcode = i.opcode)
    (hn : i.operand?.getD s.operand = s.operand) : step s = .next s' := by
  rw [← h, step_eq_runWord running, exec_eq_runWord, hn, State.microOp, hop]

section
variable {i : Instr} {s : State}

theorem exec_fetch_step0 (ht : s.t = 0) : exec i s = .next { s with mar := s.pc, t := 1 } :=
  exec_of_rom ht (rom_fetch_step0 ..) ((word_CO_MI ..).trans (by rw [ht]; rfl))

theorem exec_fetch_step1 (ht : s.t = 1) :
    exec i s = .next { s with ir := s.mem.read s.mar.toNat, pc := s.pc + 1, t := 2 } :=
  exec_of_rom ht (rom_fetch_step1 ..) ((word_RO_II_CE ..).trans (by rw [ht]; rfl))

theorem exec_address_step2 {n : Nibble}
    (hop : i.opcode = 1 ∨ i.opcode = 2 ∨ i.opcode = 3 ∨ i.opcode = 4) (hn : i.operand? = some n)
    (ht : s.t = 2) : exec i s = .next { s with mar := n, t := 3 } :=
  exec_of_rom ht (rom_address_step2 _ _ hop) ((word_IO_MI ..).trans (by rw [ht, hn]; rfl))

theorem exec_idle_step2 (hop : i.opcode = 0 ∨ 9 ≤ i.opcode.toNat ∧ i.opcode.toNat ≤ 13)
    (ht : s.t = 2) : exec i s = .next { s with t := 0 } :=
  exec_of_rom ht (rom_idle_step2 _ _ hop) (word_none ..)

theorem exec_loadB_step3 (hop : i.opcode = 2 ∨ i.opcode = 3) (ht : s.t = 3) :
    exec i s = .next { s with b := s.mem.read s.mar.toNat, t := 4 } :=
  exec_of_rom ht (rom_loadB_step3 _ _ hop) ((word_RO_BI ..).trans (by rw [ht]; rfl))

/-- The step that JMP, JC and JZ share: the jump word if `taken`, else no signal. -/
theorem exec_jump_step2 {n : Nibble} {taken : Bool}
    (word : rom i.opcode 2 s.cf s.zf = ⟨if taken then 0x4010 else 0x0000, true⟩)
    (hn : i.operand? = some n) (ht : s.t = 2) :
    exec i s = .next { s with pc := if taken then n else s.pc, t := 0 } := by
  refine exec_of_rom ht word ?_
  rw [hn]
  cases taken
  · exact word_none ..
  · exact word_IO_JP ..

end

section
variable (n : Nibble) {s : State}

theorem exec_lda_step2 (ht : s.t = 2) : exec (.lda n) s = .next { s with mar := n, t := 3 } :=
  exec_address_step2 (.inl rfl) rfl ht

theorem exec_add_step2 (ht : s.t = 2) : exec (.add n) s = .next { s with mar := n, t := 3 } :=
  exec_address_step2 (.inr (.inl rfl)) rfl ht

theorem exec_sub_step2 (ht : s.t = 2) : exec (.sub n) s = .next { s with mar := n, t := 3 } :=
  exec_address_step2 (.inr (.inr (.inl rfl))) rfl ht

theorem exec_sta_step2 (ht : s.t = 2) : exec (.sta n) s = .next { s with mar := n, t := 3 } :=
  exec_address_step2 (.inr (.inr (.inr rfl))) rfl ht

theorem exec_lda_step3 (ht : s.t = 3) :
    exec (.lda n) s = .next { s with a := s.mem.read s.mar.toNat, t := 0 } :=
  exec_of_rom ht (rom_lda_step3 ..) (word_RO_AI ..)

theorem exec_add_step3 (ht : s.t = 3) :
    exec (.add n) s = .next { s with b := s.mem.read s.mar.toNat, t := 4 } :=
  exec_loadB_step3 (.inl rfl) ht

theorem exec_sub_step3 (ht : s.t = 3) :
    exec (.sub n) s = .next { s with b := s.mem.read s.mar.toNat, t := 4 } :=
  exec_loadB_step3 (.inr rfl) ht

theorem exec_add_step4 (ht : s.t = 4) :
    exec (.add n) s = .next { s with
      a := BitVec.ofNat 8 (s.a.toNat + s.b.toNat)
      cf := decide (s.a.toNat + s.b.toNat > 255)
      zf := decide ((s.a.toNat + s.b.toNat) % 256 = 0)
      t := 0 } :=
  exec_of_rom ht (rom_add_step4 ..)
    ((word_EO_AI_FI ..).trans (by rw [aluResult_add, aluZero_add]; rfl))

theorem exec_sub_step4 (ht : s.t = 4) :
    exec (.sub n) s = .next { s with
      b := BitVec.ofInt 8 ((s.a.toNat : Int) - s.b.toNat)
      cf := decide (s.a.toNat < s.b.toNat)
      zf := decide (s.a = s.b)
      t := 0 } :=
  exec_of_rom ht (rom_sub_step4 ..)
    ((word_EO_BI_FI_SU ..).trans (by rw [aluResult_sub, aluZero_sub]; rfl))

theorem exec_sta_step3 (ht : s.t = 3) :
    exec (.sta n) s = .next { s with mem := s.mem.write s.mar.toNat s.a, t := 0 } :=
  exec_of_rom ht (rom_sta_step3 ..) (word_AO_RI ..)

theorem exec_ldi_step2 (ht : s.t = 2) :
    exec (.ldi n) s = .next { s with a := n.setWidth 8, t := 0 } :=
  exec_of_rom ht (rom_ldi_step2 ..) (word_IO_AI ..)

theorem exec_jmp_step2 (ht : s.t = 2) : exec (.jmp n) s = .next { s with pc := n, t := 0 } :=
  exec_jump_step2 (taken := true) (rom_jmp_step2 ..) rfl ht

theorem exec_jc_step2 (ht : s.t = 2) :
    exec (.jc n) s = .next { s with pc := if s.cf then n else s.pc, t := 0 } :=
  exec_jump_step2 (rom_jc_step2 ..) rfl ht

theorem exec_jz_step2 (ht : s.t = 2) :
    exec (.jz n) s = .next { s with pc := if s.zf then n else s.pc, t := 0 } :=
  exec_jump_step2 (rom_jz_step2 ..) rfl ht

theorem exec_out_step2 (ht : s.t = 2) : exec .out s = .next { s with out := s.a, t := 0 } :=
  exec_of_rom ht (rom_out_step2 ..) (word_AO_OI ..)

theorem exec_hlt_step2 (ht : s.t = 2) : exec .hlt s = .next { s with halted := true, t := 0 } :=
  exec_of_rom ht (rom_hlt_step2 ..) (word_HLT ..)

end

/-- One micro-step of a run whose `IR` decodes to `i`. -/
theorem run_exec {s s' : State} {i : Instr} {k : Nat} (running : s.halted = false) (dec : decodeByte s.ir = i)
    (h : exec i s = .next s') : run (k + 1) s = run k s' :=
  run_succ_of_next ((step_of_decoded running).trans (dec ▸ h)) k

/-- A read at a 4-bit address after a write at one. -/
theorem read_write_nibbles (m : Memory) (a x : Nibble) (v : Byte) :
    (m.write a.toNat v).read x.toNat = if x = a then v else m.read x.toNat := by
  rw [read_write_nibble, Nat.mod_eq_of_lt x.isLt]
  simp only [BitVec.toNat_inj]

end Sys2Proof.Machine
end

section
/-! SUPPORT. The statements about the fetch (spec/40_microcode_decoder.md R61, R62,
spec/45_instr_data_movement.md section 1). -/

namespace Sys2Proof.Machine

/-- Settles O6. The word has PC-out as its driver. -/
theorem fetchStepZero : Obligations.FetchStepZero := by
  refine ⟨fun op cf zf => rom_fetch_step0 cf zf op, fun i s ht => exec_fetch_step0 ht,
    fun s running ht => ⟨?_, (step_of_decoded running).trans (exec_fetch_step0 ht)⟩⟩
  exact observe_bus_of_rom running rfl ht (rom_fetch_step0 ..) (busValue_co _ _ (by decide))

/-- Settles O8. Two micro-steps of whatever instruction `IR` holds: the first puts `PC` in `MAR`, so the
second reads the byte at the old `PC`. -/
theorem fetchOfEveryInstruction : Obligations.FetchOfEveryInstruction := by
  intro s ⟨running, ht⟩
  calc run 2 s
    _ = run 1 _ := run_exec running rfl (exec_fetch_step0 ht)
    _ = run 0 _ := run_exec running rfl (exec_fetch_step1 rfl)

/-- Settles O7. `PC + 1` is the increment modulo 16, and the opcode of the fetched byte its quotient
by 16. -/
theorem fetchStepOne : Obligations.FetchStepOne := by
  have fetch (i : Instr) (s : State) (ht : s.t = 1) : exec i s = .next { s with
      ir := s.mem.read s.mar.toNat, pc := BitVec.ofNat 4 ((s.pc.toNat + 1) % 16), t := 2 } := by
    rw [exec_fetch_step1 ht, nibble_succ_eq_ofNat]
  refine ⟨fun op cf zf => rom_fetch_step1 cf zf op, fetch,
    fun s running ht => ⟨?_, (step_of_decoded running).trans (fetch _ s ht)⟩,
    fun s boundary => ⟨_, fetchOfEveryInstruction s boundary, highNibble_toNat _, nibble_succ_toNat _⟩⟩
  exact observe_bus_of_rom running rfl ht (rom_fetch_step1 ..) (busValue_ro (by decide) _ _ (by decide))

/-- Settles O43. The fetch from cell 0 of the image's memory; `MAR` is 0 already. -/
theorem executionBeginsAtCellZero : Obligations.ExecutionBeginsAtCellZero := by
  intro image
  have cell0 : (Memory.ofImage image).read 0 = image[0] := read_ofImage image 0 (by decide)
  refine ⟨run_exec (k := 0) rfl rfl (exec_fetch_step0 rfl), ?_⟩
  rw [← cell0]
  exact fetchOfEveryInstruction (State.resetWith image) ⟨rfl, rfl⟩

end Sys2Proof.Machine
end

section
/-! SUPPORT. One statement per row of the ROM (spec/40_microcode_decoder.md R65 to R76). Each is the words
of the row, what `exec` answers under them, and the same of a running machine with the driver's value. -/

namespace Sys2Proof.Machine.RomRows

/-! ### The rows without an operand -/

/-- Settles O9. The word 0x0000 has no driver. -/
theorem nopRow : Obligations.NopRow := by
  have idle (s : State) (ht : s.t = 2) : exec .nop s = .next { s with t := 0 } :=
    exec_idle_step2 (.inl rfl) ht
  refine ⟨fun cf zf => rom_idle_step2 cf zf (.inl rfl), idle, fun s running op ht =>
    ⟨?_, step_of_exec running (idle s ht) op rfl⟩⟩
  exact observe_bus_of_rom running op ht (rom_idle_step2 _ _ (.inl rfl))
    (busValue_of_no_driver _ _ (by decide))

/-- Settles O18. All five run the word of NOP. -/
theorem unusedRows : Obligations.UnusedRows := by
  have idle {i : Instr} {s : State} (ht : s.t = 2) (h : 9 ≤ i.opcode.toNat ∧ i.opcode.toNat ≤ 13) :
      exec i s = .next { s with t := 0 } := exec_idle_step2 (.inr h) ht
  refine ⟨fun op lo hi cf zf => rom_idle_step2 cf zf (.inr ⟨lo, hi⟩),
    fun s ht => ⟨idle ht (by decide), idle ht (by decide), idle ht (by decide), idle ht (by decide),
      idle ht (by decide)⟩,
    fun s running lo hi ht => (step_of_decoded running).trans (idle ht ?_)⟩
  rw [opcode_decodeByte]
  exact ⟨lo, hi⟩

/-- Settles O19. The driver is A-out. -/
theorem outRow : Obligations.OutRow := by
  refine ⟨rom_out_step2, fun s ht => exec_out_step2 ht, fun s running op ht =>
    ⟨?_, step_of_exec running (exec_out_step2 ht) op rfl⟩⟩
  exact observe_bus_of_rom running op ht (rom_out_step2 ..) (busValue_ao (by decide) _ _ (by decide))

/-- Settles O20. The word 0x0001 has no driver and no ALU-out. -/
theorem hltRow : Obligations.HltRow := by
  refine ⟨rom_hlt_step2, fun s ht => exec_hlt_step2 ht, fun s running op ht =>
    ⟨?_, step_of_exec running (exec_hlt_step2 ht) op rfl⟩⟩
  have no_bus : busValue s.operand 0x0001 s = none := busValue_of_no_driver _ _ (by decide)
  rw [observe_of_rom running op ht (rom_hlt_step2 ..), observeWord, no_bus, running]
  rfl

/-! ### The rows that address memory -/

/-- Settles O10. The drivers are Instruction-out and RAM-out. -/
theorem ldaRow : Obligations.LdaRow := by
  refine ⟨fun cf zf => ⟨rom_address_step2 cf zf (by decide), rom_lda_step3 cf zf⟩,
    fun n s ht => exec_lda_step2 n ht, fun n s ht => exec_lda_step3 n ht,
    fun s running op ht => ⟨?_, step_of_exec running (exec_lda_step2 s.operand ht) op rfl⟩,
    fun s running op ht => ⟨?_, step_of_exec running (exec_lda_step3 s.operand ht) op rfl⟩⟩
  · exact observe_bus_of_rom running op ht (rom_address_step2 _ _ (by decide))
      (busValue_operand _ (by decide) (by decide))
  · exact observe_bus_of_rom running op ht (rom_lda_step3 ..) (busValue_ro (by decide) _ _ (by decide))

/-- Settles O11. At step 4 the driver is ALU-out, and the ALU adds. -/
theorem addRow : Obligations.AddRow := by
  refine ⟨fun cf zf => ⟨rom_address_step2 cf zf (by decide), rom_loadB_step3 cf zf (by decide),
      rom_add_step4 cf zf⟩,
    fun n s ht => exec_add_step2 n ht, fun n s ht => exec_add_step3 n ht,
    fun n s ht => exec_add_step4 n ht,
    fun s running op ht => step_of_exec running (exec_add_step2 s.operand ht) op rfl,
    fun s running op ht => ?_⟩
  rw [← aluResult_add]
  exact observe_bus_of_rom running op ht (rom_add_step4 ..) (busValue_eo (by decide) _ _ (by decide))

/-- Settles O12. At step 4 the driver is ALU-out, and the ALU subtracts; the difference is a multiple of
256 exactly where the operands are equal. -/
theorem subRow : Obligations.SubRow := by
  refine ⟨fun cf zf => ⟨rom_address_step2 cf zf (by decide), rom_loadB_step3 cf zf (by decide),
      rom_sub_step4 cf zf⟩,
    fun n s ht => exec_sub_step2 n ht, fun n s ht => exec_sub_step3 n ht, fun n s ht => ?_,
    fun s running op ht => step_of_exec running (exec_sub_step2 s.operand ht) op rfl,
    fun s running op ht => ?_⟩
  · simp only [exec_sub_step4 n ht, eq_iff_sub_emod]
  · rw [← aluResult_sub]
    exact observe_bus_of_rom running op ht (rom_sub_step4 ..) (busValue_eo (by decide) _ _ (by decide))

/-- Settles O13. The memory of step 3 is the one write, at `MAR`; the driver is A-out. -/
theorem staRow : Obligations.StaRow := by
  refine ⟨fun cf zf => ⟨rom_address_step2 cf zf (by decide), rom_sta_step3 cf zf⟩,
    fun n s ht => exec_sta_step2 n ht,
    fun n s ht => ⟨_, exec_sta_step3 n ht, fun x => read_write_nibbles ..⟩,
    fun s running op ht => step_of_exec running (exec_sta_step2 s.operand ht) op rfl,
    fun s running op ht => ?_⟩
  exact observe_bus_of_rom running op ht (rom_sta_step3 ..) (busValue_ao (by decide) _ _ (by decide))

/-! ### The rows that use the operand itself -/

/-- Settles O14. The driver is Instruction-out, so `A` takes `IR & 0x0F`. -/
theorem ldiRow : Obligations.LdiRow := by
  refine ⟨rom_ldi_step2, fun n s ht => exec_ldi_step2 n ht, fun s running op ht => ⟨?_, ?_⟩⟩
  · exact observe_bus_of_rom running op ht (rom_ldi_step2 ..)
      (busValue_operand _ (by decide) (by decide))
  · rw [← operandOnBus_operand]
    exact step_of_exec running (exec_ldi_step2 s.operand ht) op rfl

/-- Settles O15. The driver is Instruction-out. -/
theorem jmpRow : Obligations.JmpRow := by
  refine ⟨rom_jmp_step2, fun n s ht => exec_jmp_step2 n ht, fun s running op ht =>
    ⟨?_, step_of_exec running (exec_jmp_step2 s.operand ht) op rfl⟩⟩
  exact observe_bus_of_rom running op ht (rom_jmp_step2 ..)
    (busValue_operand _ (by decide) (by decide))

/-- Settles O16. The reported word is the row's, which reads `CF` alone. -/
theorem jcRow : Obligations.JcRow := by
  refine ⟨fun zf => ⟨rom_jc_step2 true zf, rom_jc_step2 false zf⟩, fun n s ht => exec_jc_step2 n ht,
    fun s running op ht => ⟨?_, step_of_exec running (exec_jc_step2 s.operand ht) op rfl⟩⟩
  exact congrArg Obs.word (observe_of_rom running op ht (rom_jc_step2 ..))

/-- Settles O17. The reported word is the row's, which reads `ZF` alone. -/
theorem jzRow : Obligations.JzRow := by
  refine ⟨fun cf => ⟨rom_jz_step2 cf true, rom_jz_step2 cf false⟩, fun n s ht => exec_jz_step2 n ht,
    fun s running op ht => ⟨?_, step_of_exec running (exec_jz_step2 s.operand ht) op rfl⟩⟩
  exact congrArg Obs.word (observe_of_rom running op ht (rom_jz_step2 ..))

end Sys2Proof.Machine.RomRows
end

section
/-! SUPPORT. Whole instructions, from boundary to boundary (spec/45_instr_data_movement.md,
spec/46_instr_arithmetic.md, spec/47_instr_control.md): the fetch, then the steps of the row. -/

namespace Sys2Proof.Machine

/-- The state the fetch of `byte` leaves, the byte having been read from the cell at `PC` (R125). -/
abbrev State.afterFetch (s : State) (byte : Byte) : State :=
  { s with mar := s.pc, ir := byte, pc := s.pc + 1, t := 2 }

/-- A byte with opcode `op` and low nibble `n` decodes by those two fields. -/
theorem decodeByte_joinNibbles (op n : Nibble) : decodeByte (joinNibbles op n) = decodeFields op n := by
  rw [decodeByte, highNibble_joinNibbles, lowNibble_joinNibbles]

/-- A run from a boundary goes on from the state the fetch leaves. -/
theorem run_fetch {s : State} {byte : Byte} (boundary : s.AtBoundary)
    (cell : s.mem.read s.pc.toNat = byte) (k : Nat) : run (2 + k) s = run k (s.afterFetch byte) :=
  run_add (cell ▸ fetchOfEveryInstruction s boundary) k

/-- A run from a boundary goes on from what the first execute step of the fetched instruction answers. -/
theorem run_execute {s s' : State} {op n : Nibble} (boundary : s.AtBoundary)
    (cell : s.mem.read s.pc.toNat = joinNibbles op n)
    (h : exec (decodeFields op n) (s.afterFetch (joinNibbles op n)) = .next s') (k : Nat) :
    run (3 + k) s = run k s' := by
  calc run (3 + k) s
    _ = run (2 + (k + 1)) s := by rw [Nat.add_comm k 1, ← Nat.add_assoc]
    _ = run (k + 1) (s.afterFetch (joinNibbles op n)) := run_fetch boundary cell (k + 1)
    _ = run k s' := run_exec boundary.1 (decodeByte_joinNibbles op n) h

/-- A halted machine stays as it is however often it is clocked. -/
theorem run_of_halted {s : State} (h : s.halted = true) : ∀ k, run k s = .next s
  | 0 => rfl
  | k + 1 => (run_succ_of_next (step_of_halted h) k).trans (run_of_halted h k)

/-! ### Three micro-steps -/

/-- An instruction whose first execute step is its last takes three micro-steps. -/
theorem run_three {s s' : State} {op n : Nibble} (boundary : s.AtBoundary)
    (cell : s.mem.read s.pc.toNat = joinNibbles op n)
    (h : exec (decodeFields op n) (s.afterFetch (joinNibbles op n)) = .next { s' with t := 0 })
    (ht : s'.t = s.t) : run 3 s = .next s' := by
  rw [← boundary.2, ← ht] at h
  exact run_execute boundary cell h 0

/-- Settles O21. The idle step 2 leaves only the counter to return to 0. -/
theorem nopInstruction : Obligations.NopInstruction := fun _ _ boundary cell =>
  run_three boundary cell (exec_idle_step2 (i := .nop) (.inl rfl) rfl) rfl

/-- Settles O26. The one execute step puts the operand in `A`. -/
theorem ldiInstruction : Obligations.LdiInstruction := fun _ n boundary cell =>
  run_three boundary cell (exec_ldi_step2 n rfl) rfl

/-- Settles O27. The one execute step puts the operand in `PC`. -/
theorem jmpInstruction : Obligations.JmpInstruction := fun _ n boundary cell =>
  run_three boundary cell (exec_jmp_step2 n rfl) rfl

/-- Settles O28. The flags are those of the boundary, since the fetch keeps them. -/
theorem jcInstruction : Obligations.JcInstruction := fun _ n boundary cell =>
  run_three boundary cell (exec_jc_step2 n rfl) rfl

/-- Settles O29. As for JC, with the zero flag. -/
theorem jzInstruction : Obligations.JzInstruction := fun _ n boundary cell =>
  run_three boundary cell (exec_jz_step2 n rfl) rfl

/-- Settles O31. The one execute step copies `A` to `OUT`. -/
theorem outInstruction : Obligations.OutInstruction := fun _ _ boundary cell =>
  run_three boundary cell (exec_out_step2 rfl) rfl

/-- Settles O30. The fetched opcode is one of the five, whose step 2 is idle. -/
theorem unusedInstructions : Obligations.UnusedInstructions := by
  intro s op x lo hi boundary cell
  refine run_three boundary cell (exec_idle_step2 (.inr ?_) rfl) rfl
  rw [← decodeByte_joinNibbles, opcode_decodeByte, highNibble_joinNibbles]
  exact ⟨lo, hi⟩

/-- Settles O32. The third micro-step halts the machine, and a halted machine stays as it is. -/
theorem hltInstruction : Obligations.HltInstruction := by
  intro s x k boundary cell
  calc run (3 + k) s
    _ = run k _ := run_execute boundary cell (exec_hlt_step2 rfl) k
    _ = .next _ := run_of_halted rfl k
    _ = .next _ := by rw [boundary.2]

/-! ### Four and five micro-steps -/

/-- Settles O22. The operand goes to `MAR`, then its cell to `A`. -/
theorem ldaInstruction : Obligations.LdaInstruction := by
  intro s n boundary cell
  calc run 4 s
    _ = run 1 _ := run_execute boundary cell (exec_lda_step2 n rfl) 1
    _ = run 0 _ := run_exec boundary.1 (decodeByte_joinNibbles 1 n) (exec_lda_step3 n rfl)
    _ = .next _ := by rw [run_zero, boundary.2]

/-- Settles O25. The one write is to cell `n`, which is read no more. -/
theorem staInstruction : Obligations.StaInstruction := by
  intro s n boundary cell
  refine ⟨s.mem.write n.toNat s.a, ?_, fun x => read_write_nibbles ..⟩
  calc run 4 s
    _ = run 1 _ := run_execute boundary cell (exec_sta_step2 n rfl) 1
    _ = run 0 _ := run_exec boundary.1 (decodeByte_joinNibbles 4 n) (exec_sta_step3 n rfl)
    _ = .next _ := by rw [run_zero, boundary.2]

/-- Settles O23. The operand's cell goes to `B`, then the sum to `A`. -/
theorem addInstruction : Obligations.AddInstruction := by
  rintro s n m boundary cell rfl
  calc run 5 s
    _ = run 2 _ := run_execute boundary cell (exec_add_step2 n rfl) 2
    _ = run 1 _ := run_exec boundary.1 (decodeByte_joinNibbles 2 n) (exec_add_step3 n rfl)
    _ = run 0 _ := run_exec boundary.1 (decodeByte_joinNibbles 2 n) (exec_add_step4 n rfl)
    _ = .next _ := by rw [run_zero, boundary.2, ofNat_emod_byte]

/-- Settles O24. The operand's cell goes to `B`, then the difference in its place. -/
theorem subInstruction : Obligations.SubInstruction := by
  rintro s n m boundary cell rfl
  calc run 5 s
    _ = run 2 _ := run_execute boundary cell (exec_sub_step2 n rfl) 2
    _ = run 1 _ := run_exec boundary.1 (decodeByte_joinNibbles 3 n) (exec_sub_step3 n rfl)
    _ = run 0 _ := run_exec boundary.1 (decodeByte_joinNibbles 3 n) (exec_sub_step4 n rfl)
    _ = .next _ := by rw [run_zero, boundary.2, ofInt_emod_byte]

end Sys2Proof.Machine
end

section
/-! SUPPORT. The micro-step counter: when it returns to 0, and the length of each instruction
(spec/40_microcode_decoder.md R63, spec/44_cycle_driver.md R121). -/

namespace Sys2Proof.Machine

/-- The last step of each opcode's row (R63). -/
def lastStep (op : Nibble) : Nat :=
  if op = 1 ∨ op = 4 then 3 else if op = 2 ∨ op = 3 then 4 else 2

theorem two_le_lastStep (op : Nibble) : 2 ≤ lastStep op := by revert op; decide

theorem lastStep_le_four (op : Nibble) : lastStep op ≤ 4 := by revert op; decide

/-- The decoder marks the last step and all that lie beyond it (R63, R77). -/
theorem rom_last (op : Nibble) (t : MicroStep) (cf zf : Bool) :
    (rom op t cf zf).last = decide (lastStep op ≤ t.toNat) := by
  revert op t cf zf; decide

/-- Before the last step no word has HLT: the row of HLT has it at step 2, which is its last. -/
theorem rom_hlt_off_before_last {op : Nibble} {t : MicroStep} (h : t.toNat < lastStep op) (cf zf : Bool) :
    (rom op t cf zf).word.asserts .hlt = false := by
  rw [rom_asserts_hlt, decide_eq_false_iff_not]
  rintro ⟨rfl, rfl⟩
  exact absurd h (by decide)

/-- A running machine's counter is the next, or 0 after the last step. -/
theorem step_t {s s' : State} (running : s.halted = false) (h : step s = .next s') :
    s'.t = nextMicroStep s.microOp.last s.t := by
  rw [step_of_running running] at h
  rw [← Host.Outcome.next.inj h, latch_t]

/-- Before the last step of its row a running machine counts on, does not halt, and keeps `IR` except at
fetch step 1. -/
theorem step_before_last {s : State} (running : s.halted = false) (h : s.t.toNat < lastStep s.opcode) :
    ∃ s', step s = .next s' ∧ s'.t.toNat = s.t.toNat + 1 ∧ s'.halted = false ∧
      (s.t ≠ 1 → s'.opcode = s.opcode) := by
  have not_last : s.microOp.last = false := by
    rw [State.microOp, rom_last, decide_eq_false_iff_not]; omega
  refine ⟨_, step_of_running running, ?_, ?_, fun ht => ?_⟩
  · have le := lastStep_le_four s.opcode
    rw [latch_t, not_last, nextMicroStep, if_neg Bool.false_ne_true, BitVec.toNat_add]
    exact Nat.mod_eq_of_lt (by change s.t.toNat + 1 < 8; omega)
  · rw [latch_halted, running, State.microOp, rom_hlt_off_before_last h]; rfl
  · rw [State.opcode, latch_ir, State.microOp, rom_asserts_ii, decide_eq_false ht, latched_false]; rfl

/-- At the last step of its row the counter of a running machine returns to 0. -/
theorem step_at_last {s : State} (running : s.halted = false) (h : s.t.toNat = lastStep s.opcode) :
    ∃ s', step s = .next s' ∧ s'.t = 0 := by
  have last : s.microOp.last = true := by
    rw [State.microOp, rom_last, decide_eq_true_eq, h]
  refine ⟨_, step_of_running running, ?_⟩
  rw [latch_t, last, nextMicroStep, if_pos rfl]

/-- One more step at the end of a run. -/
theorem run_step_end {k : Nat} {s u s' : State} (h : run k s = .next u) (hs : step u = .next s') :
    run (k + 1) s = .next s' :=
  (run_add h 1).trans (run_succ_of_next hs 0)

/-- Where an instruction with opcode `op` stands after `k` micro-steps from its boundary, the last one
not yet done. -/
def MidInstruction (op : Nibble) (k : Nat) (u : State) : Prop :=
  u.t.toNat = k ∧ u.halted = false ∧ (2 ≤ k → u.opcode = op)

/-- From its boundary an instruction counts up to the last step of its row. -/
theorem run_within_instruction {s : State} {op n : Nibble} (boundary : s.AtBoundary)
    (cell : s.mem.read s.pc.toNat = joinNibbles op n) :
    ∀ k, k ≤ lastStep op → ∃ u, run k s = .next u ∧ MidInstruction op k u
  | 0, _ => ⟨s, rfl, by rw [boundary.2]; rfl, boundary.1, by omega⟩
  | 1, _ => ⟨_, run_exec (k := 0) boundary.1 rfl (exec_fetch_step0 boundary.2), rfl, boundary.1, by omega⟩
  | 2, _ => ⟨_, run_fetch boundary cell 0, rfl, boundary.1, fun _ => highNibble_joinNibbles op n⟩
  | k + 3, hk => by
    obtain ⟨u, hu, ht, running, hop⟩ := run_within_instruction boundary cell (k + 2) (by omega)
    have hop : u.opcode = op := hop (by omega)
    obtain ⟨u', step_u, ht', running', keeps⟩ :=
      step_before_last running (by rw [hop, ht]; omega)
    have past_fetch : u.t ≠ 1 := fun h => by
      rw [h] at ht
      exact absurd ht (by change 1 ≠ k + 2; omega)
    exact ⟨u', run_step_end hu step_u, by omega, running', fun _ => (keeps past_fetch).trans hop⟩

/-- The micro-step after the last step of the row's count brings the machine to the next boundary. -/
theorem run_whole_instruction {s : State} {op n : Nibble} (boundary : s.AtBoundary)
    (cell : s.mem.read s.pc.toNat = joinNibbles op n) :
    ∃ u, run (lastStep op + 1) s = .next u ∧ u.t = 0 := by
  obtain ⟨u, hu, ht, running, hop⟩ := run_within_instruction boundary cell (lastStep op) le_rfl
  obtain ⟨u', step_u, ht'⟩ := step_at_last running (by rw [ht, hop (two_le_lastStep op)])
  exact ⟨u', run_step_end hu step_u, ht'⟩

/-- A run whose counter is 0 at the end and nowhere between ends at the first boundary. -/
theorem runToBoundary_of_run : ∀ {k fuel : Nat} {s u : State}, k < fuel → run (k + 1) s = .next u →
    (∀ j, 0 < j → j ≤ k → ∃ v, run j s = .next v ∧ v.t ≠ 0) → u.t = 0 →
    runToBoundary fuel s = .next u
  | k, fuel + 1, s, u, hk, hrun, between, hu => by
    cases hs : step s with
    | fault f => exact nomatch f
    | refused r => simp [run, hs] at hrun
    | next s' =>
      have after (j : Nat) : run (j + 1) s = run j s' := run_succ_of_next hs j
      rw [after] at hrun
      simp only [runToBoundary, hs]
      cases k with
      | zero =>
        rw [Host.Outcome.next.inj hrun, if_pos hu]
      | succ k =>
        obtain ⟨v, hv, v_ne⟩ := between 1 (by omega) (by omega)
        rw [after] at hv
        rw [if_neg (Host.Outcome.next.inj hv ▸ v_ne)]
        refine runToBoundary_of_run (by omega) hrun (fun j _ hj => ?_) hu
        rw [← after]
        exact between (j + 1) (by omega) (by omega)

/-- `instruction` runs from a boundary to the end of the row's last step. -/
theorem instruction_eq_run {s u : State} {op n : Nibble} (boundary : s.AtBoundary)
    (cell : s.mem.read s.pc.toNat = joinNibbles op n) (h : run (lastStep op + 1) s = .next u)
    (hu : u.t = 0) : instruction s = .next u := by
  have le := lastStep_le_four op
  refine runToBoundary_of_run (by omega) h (fun j pos hj => ?_) hu
  obtain ⟨v, hv, ht, -⟩ := run_within_instruction boundary cell j hj
  refine ⟨v, hv, fun zero => ?_⟩
  rw [zero] at ht
  exact absurd ht pos.ne

/-- The number of micro-steps of an instruction is one more than the last step of its row. -/
theorem lastStep_succ (op : Nibble) :
    (if op = 1 ∨ op = 4 then 4 else if op = 2 ∨ op = 3 then 5 else 3) = lastStep op + 1 := by
  revert op; decide

/-- Settles O44. The counter goes on up to the last step of the row, where the decoder's mark returns it
to 0; so `instruction` meets its first boundary there. -/
theorem microStepCounter : Obligations.MicroStepCounter := by
  refine ⟨fun s s' running h => step_t running h, fun op t cf zf _ => ?_,
    fun s op n boundary cell => ?_⟩
  · rw [rom_last]
    exact ⟨fun h => decide_eq_false (Nat.not_le.2 h), fun h => decide_eq_true h.ge⟩
  · rw [lastStep_succ]
    refine ⟨fun k _ hk => ?_, ?_⟩
    · obtain ⟨u, hu, ht, running, -⟩ := run_within_instruction boundary cell k (Nat.lt_succ_iff.1 hk)
      exact ⟨u, hu, ht, running⟩
    · obtain ⟨u, hu, ht⟩ := run_whole_instruction boundary cell
      exact ⟨u, hu, ht, instruction_eq_run boundary cell hu ht⟩

end Sys2Proof.Machine
end

section
/-! SUPPORT. The PC stage (spec/42_pc_stage.md R100 to R103), and the steps that keep the flags
(spec/43_alu_flags.md R109). -/

namespace Sys2Proof.Machine

/-- A 4-bit element takes the low four bits of the bus (R101). -/
theorem addressFromBus_eq_setWidth (v : Byte) : addressFromBus v = v.setWidth 4 :=
  (BitVec.setWidth_eq_extractLsb' (by decide)).symm

/-! ### The three branches of the stage -/

section
variable {cw : ControlWord} (bus : Option Byte) (pc : Nibble)

/-- Jump takes the bus, whatever PC-enable says (R101, R102). -/
theorem nextPc_of_jp (jp : cw.asserts .jp = true) (v : Byte) :
    nextPc cw (some v) pc = addressFromBus v := by
  rw [nextPc, if_pos jp, Option.elim_some]

/-- PC-enable without Jump increments (R100). -/
theorem nextPc_of_ce (jp : cw.asserts .jp = false) (ce : cw.asserts .ce = true) :
    nextPc cw bus pc = pc + 1 := by
  rw [nextPc, if_neg (Bool.eq_false_iff.1 jp), if_pos ce]

/-- Without Jump and PC-enable the counter is kept (R103). -/
theorem nextPc_of_off (jp : cw.asserts .jp = false) (ce : cw.asserts .ce = false) :
    nextPc cw bus pc = pc := by
  rw [nextPc, if_neg (Bool.eq_false_iff.1 jp), if_neg (Bool.eq_false_iff.1 ce)]

end

/-! ### The flags without the flag latch -/

/-- The latch part keeps both flags where the flag latches are not written. -/
theorem latch_flags_kept {cw : ControlWord} (h : latchesFlags cw = false) (bus : Option Byte)
    (last : Bool) (s : State) :
    (latch cw bus last s).cf = s.cf ∧ (latch cw bus last s).zf = s.zf := by
  rw [latch_cf, latch_zf, nextCarry, nextZero, h]
  exact ⟨rfl, rfl⟩

/-- Only step 4 of ADD and SUB writes the flag latches. -/
theorem microOp_latchesFlags (s : State) :
    latchesFlags s.microOp.word = decide ((s.opcode = 2 ∨ s.opcode = 3) ∧ s.t = 4) := by
  rw [latchesFlags, State.microOp, rom_asserts_eo, rom_asserts_fi, Bool.and_self]

/-- Every step but step 4 of ADD and SUB keeps both flags; so does a halted machine. -/
theorem step_flags_kept {s s' : State} (h : step s = .next s')
    (other : ¬((s.opcode = 2 ∨ s.opcode = 3) ∧ s.t = 4)) : s'.cf = s.cf ∧ s'.zf = s.zf := by
  obtain ⟨-, rfl⟩ | ⟨-, rfl⟩ := step_next h
  · exact ⟨rfl, rfl⟩
  · have off : latchesFlags s.microOp.word = false :=
      (microOp_latchesFlags s).trans (decide_eq_false other)
    exact latch_flags_kept off ..

/-! ### The obligation of spec/42_pc_stage.md -/

/-- Settles O50. An accepted word has a bus value where it asserts Jump; the ROM asserts PC-enable at
step 1 only, and Jump and the flag latch at other steps. -/
theorem pcStage : Obligations.PcStage := by
  refine ⟨fun m s s' h => ?_, fun op t cf zf => ?_, fun op t cf zf => ?_, fun s s' ht h => ?_⟩
  · obtain ⟨wf, rfl⟩ := microStep_next h
    refine ⟨fun jp => ?_, fun jp ce => ?_, fun jp ce => nextPc_of_off _ s.pc jp ce⟩
    · obtain ⟨v, bus⟩ := busValue_of_latch wf s.operand s (mem_busLatches.2 ⟨by simp, jp⟩)
      refine ⟨v, bus, ?_⟩
      rw [latch_pc, bus, nextPc_of_jp s.pc jp, addressFromBus_eq_setWidth]
    · rw [latch_pc, nextPc_of_ce _ s.pc jp ce, nibble_succ_toNat]
  · rw [rom_asserts_ce, decide_eq_true_iff]
  · rw [rom_asserts_ce, rom_asserts_jp, ← Bool.decide_and, decide_eq_false_iff_not]
    rintro ⟨step1, step2, -⟩
    exact absurd (step1.symm.trans step2) (by decide)
  · refine step_flags_kept h fun ⟨_, step4⟩ => ?_
    exact absurd (ht.symm.trans step4) (by decide)

end Sys2Proof.Machine
end

section
/-! SUPPORT. The ALU and the flag latches (spec/43_alu_flags.md R105 to R112). -/

namespace Sys2Proof.Machine

/-! ### The two operations in unbounded integers -/

section
variable (a b : Byte)

/-- The sum modulo 256 (R105). -/
theorem aluResult_add_toNat : (aluResult a b false).toNat = (a.toNat + b.toNat) % 256 := by
  rw [aluResult_add, BitVec.toNat_ofNat]

/-- The difference modulo 256 (R105). -/
theorem aluResult_sub_toNat :
    ((aluResult a b true).toNat : Int) = ((a.toNat : Int) - b.toNat) % 256 := by
  rw [aluResult_sub, BitVec.toNat_ofInt, Int.toNat_of_nonneg (Int.emod_nonneg _ (by decide))]
  rfl

/-- The carry of a sum is the overflow of eight bits (R106). -/
theorem aluCarry_add_iff : aluCarry a b false = true ↔ 255 < a.toNat + b.toNat := decide_eq_true_iff

/-- The carry of a difference is the borrow (R107). -/
theorem aluCarry_sub_iff : aluCarry a b true = true ↔ a.toNat < b.toNat := decide_eq_true_iff

/-- The zero output is that of the wrapped result (R108). -/
theorem aluZero_iff (su : Bool) : aluZero a b su = true ↔ (aluResult a b su).toNat = 0 := by
  rw [aluZero, decide_eq_true_iff, ← BitVec.toNat_inj]
  rfl

theorem aluZero_sub_iff : aluZero a b true = true ↔ a = b := by
  rw [aluZero_sub, decide_eq_true_iff]

/-- The carry of a sum is its quotient by 256. -/
theorem aluCarry_add_toNat : (aluCarry a b false).toNat = (a.toNat + b.toNat) / 256 := by
  have := a.isLt
  have := b.isLt
  cases h : aluCarry a b false
  · have fits : ¬ 255 < a.toNat + b.toNat := fun wraps =>
      absurd ((aluCarry_add_iff a b).2 wraps) (Bool.eq_false_iff.1 h)
    rw [Bool.toNat_false]
    omega
  · have wraps := (aluCarry_add_iff a b).1 h
    rw [Bool.toNat_true]
    omega

/-- The borrow of a difference is its quotient by 256, negated. -/
theorem aluCarry_sub_toNat :
    ((aluCarry a b true).toNat : Int) = -(((a.toNat : Int) - b.toNat) / 256) := by
  have := a.isLt
  have := b.isLt
  cases h : aluCarry a b true
  · have fits : ¬ a.toNat < b.toNat := fun borrows =>
      absurd ((aluCarry_sub_iff a b).2 borrows) (Bool.eq_false_iff.1 h)
    rw [Bool.toNat_false]
    omega
  · have borrows := (aluCarry_sub_iff a b).1 h
    rw [Bool.toNat_true]
    omega

end

/-! ### The flag latches under a word that writes them -/

/-- Under ALU-out and Flags-in both flags take the outputs of the one ALU operation (R109). -/
theorem latch_flags_written {cw : ControlWord} (h : latchesFlags cw = true) (bus : Option Byte)
    (last : Bool) (s : State) :
    (latch cw bus last s).cf = aluCarry s.a s.b (cw.asserts .su) ∧
    (latch cw bus last s).zf = aluZero s.a s.b (cw.asserts .su) := by
  rw [latch_cf, latch_zf, nextCarry, nextZero, if_pos h, if_pos h]
  exact ⟨rfl, rfl⟩

/-! ### The obligations of spec/43_alu_flags.md -/

/-- Settles O47, output by output. -/
theorem aluResultCarryZero : Obligations.AluResultCarryZero := fun a b =>
  ⟨aluResult_add_toNat a b, aluResult_sub_toNat a b, aluCarry_add_iff a b, aluCarry_sub_iff a b,
    aluZero_iff a b, aluZero_sub_iff a b⟩

/-- Settles O48. The result is the remainder of the sum or difference by 256 and the carry its quotient,
so each law is division with remainder; a difference that is zero has equal operands, which need no
borrow. -/
theorem arithmeticLaws : Obligations.ArithmeticLaws := by
  intro a b
  have := a.isLt
  have := b.isLt
  refine ⟨?sum, ?difference, ?carryLeft, ?carryRight, ?zeroAndCarry, ?notBoth⟩
  case sum =>
    rw [aluResult_add_toNat, aluCarry_add_toNat, Nat.mod_add_div]
  case difference =>
    rw [aluResult_sub_toNat, aluCarry_sub_toNat, mul_neg, sub_neg_eq_add, Int.emod_add_mul_ediv]
  case carryLeft =>
    rw [aluCarry_add_iff, aluResult_add_toNat]
    omega
  case carryRight =>
    rw [aluCarry_add_iff, aluResult_add_toNat]
    omega
  case zeroAndCarry =>
    rw [aluZero_iff, aluCarry_add_iff, aluResult_add_toNat]
    omega
  case notBoth =>
    rintro ⟨zero, borrow⟩
    rw [aluZero_sub_iff] at zero
    rw [aluCarry_sub_iff, zero] at borrow
    exact Nat.lt_irrefl _ borrow

/-- Settles O49. An accepted word writes the flags in the latch part, and the ROM's column of Flags-in is
step 4 of ADD and SUB. -/
theorem flagsWrittenOnlyWithAluOutAndFlagsIn : Obligations.FlagsWrittenOnlyWithAluOutAndFlagsIn := by
  refine ⟨fun m s s' h => ?_, fun op t cf zf => ?_, fun _ _ => step_flags_kept⟩
  · obtain ⟨-, rfl⟩ := microStep_next h
    refine ⟨fun eo fi => latch_flags_written (Bool.and_eq_true_iff.2 ⟨eo, fi⟩) .., fun off => ?_⟩
    exact latch_flags_kept (Bool.and_eq_false_iff.2 off) ..
  · rw [rom_asserts_fi, decide_eq_true_iff]

end Sys2Proof.Machine
end

section
/-! SUPPORT. Encoding: the byte of an instruction and what the decoder makes of it
(spec/30_encoding.md R45 to R48). -/

namespace Sys2Proof.Machine

/-- The opcode table gives back the instruction whose opcode and operand it reads (R47). -/
theorem decodeFields_opcode_operand (i : Instr) : decodeFields i.opcode (i.operand?.getD 0) = i := by
  cases i <;> rfl

/-- Every instruction is read back from its own byte. -/
theorem decodeByte_encodeByte (i : Instr) : decodeByte (encodeByte i) = i :=
  (decodeByte_joinNibbles ..).trans (decodeFields_opcode_operand i)

/-- Settles O1. The byte joins opcode and operand, the decoder parts them again, and it takes one byte
only. -/
theorem decodeOfEncodeIsTheInstruction : Obligations.DecodeOfEncodeIsTheInstruction := by
  intro i rest
  refine ⟨decodeByte_encodeByte i, ?_⟩
  calc decode (encode i ++ rest)
    _ = .ok (decodeByte (encodeByte i), rest) := rfl
    _ = .ok (i, rest) := by rw [decodeByte_encodeByte]

/-- A byte that agrees with a match value under the mask 0xF0 has that value's opcode (R47). -/
theorem highNibble_of_mask {b : Byte} {op : Nibble} (h : b &&& 0xF0 = joinNibbles op 0) :
    highNibble b = op := by
  have masked : ∀ b : Byte, highNibble (b &&& 0xF0) = highNibble b := by decide
  rw [← masked, h, highNibble_joinNibbles]

/-- A byte that agrees with a match value under the mask 0xF0 decodes to that row of the table. -/
theorem decodeByte_of_mask {b : Byte} (op : Nibble) (h : b &&& 0xF0 = joinNibbles op 0) :
    decodeByte b = decodeFields op (b.setWidth 4) := by
  rw [decodeByte, highNibble_of_mask h, ← addressFromBus_eq_setWidth, addressFromBus]

/-- Settles O2. Each row is the table at the opcode of its match value, and each byte joins the opcode
with the operand or 0. -/
theorem opcodeTableMatchAndMask : Obligations.OpcodeTableMatchAndMask := by
  refine ⟨fun b => ?rows, fun n => ?operandBytes, ?fixedBytes⟩
  case rows =>
    exact ⟨decodeByte_of_mask 0, decodeByte_of_mask 1, decodeByte_of_mask 2, decodeByte_of_mask 3,
      decodeByte_of_mask 4, decodeByte_of_mask 5, decodeByte_of_mask 6, decodeByte_of_mask 7,
      decodeByte_of_mask 8, decodeByte_of_mask 9, decodeByte_of_mask 10, decodeByte_of_mask 11,
      decodeByte_of_mask 12, decodeByte_of_mask 13, decodeByte_of_mask 14, decodeByte_of_mask 15⟩
  case operandBytes => exact ⟨rfl, rfl, rfl, rfl, rfl, rfl, rfl, rfl⟩
  case fixedBytes => exact ⟨rfl, rfl, rfl, rfl, rfl, rfl, rfl, rfl⟩

/-- Settles O4. Each of the seven words is one byte, read by the table. -/
theorem wordsDecodeAsTheTableSays : Obligations.WordsDecodeAsTheTableSays :=
  ⟨rfl, rfl, rfl, rfl, rfl, rfl, rfl⟩

end Sys2Proof.Machine
end

section
/-! SUPPORT. The invariants of the reachable states (spec/10_state.md section 8,
spec/44_cycle_driver.md section 4). -/

namespace Sys2Proof.Machine

/-! ### What a running machine's step makes of the counter and of `HALTED` -/

/-- Only LDA, ADD, SUB and STA have a step 3. -/
theorem opcode_of_step3 {op : Nibble} (h : 2 < lastStep op) : op = 1 ∨ op = 2 ∨ op = 3 ∨ op = 4 := by
  revert op; decide

/-- Only ADD and SUB have a step 4. -/
theorem opcode_of_step4 {op : Nibble} (h : 3 < lastStep op) : op = 2 ∨ op = 3 := by
  revert op; decide

/-- A running machine keeps `IR` at every step but fetch step 1. -/
theorem step_ir_kept {s s' : State} (running : s.halted = false) (h : step s = .next s')
    (ht : s.t ≠ 1) : s'.ir = s.ir := by
  rw [step_of_running running] at h
  rw [← Host.Outcome.next.inj h, latch_ir, State.microOp, rom_asserts_ii, decide_eq_false ht,
    latched_false]

/-- A running machine halts at step 2 of HLT and nowhere else. -/
theorem step_halts {s s' : State} (running : s.halted = false) (h : step s = .next s')
    (halts : s'.halted = true) : s.opcode = 15 ∧ s.t = 2 := by
  rw [step_of_running running] at h
  rwa [← Host.Outcome.next.inj h, latch_halted, running, Bool.false_or, State.microOp,
    rom_asserts_hlt, decide_eq_true_iff] at halts

/-- From the last step of its row on, a running machine's counter returns to 0. -/
theorem step_t_of_last {s s' : State} (running : s.halted = false) (h : step s = .next s')
    (hl : lastStep s.opcode ≤ s.t.toNat) : s'.t = 0 := by
  rw [step_t running h, State.microOp, rom_last, decide_eq_true hl, nextMicroStep, if_pos rfl]

/-- A running machine's counter is 0, or it was before the last step of its row and is one further. -/
theorem step_t_cases {s s' : State} (running : s.halted = false) (h : step s = .next s') :
    s'.t = 0 ∨ s.t.toNat < lastStep s.opcode ∧ s'.t.toNat = s.t.toNat + 1 := by
  by_cases hl : s.t.toNat < lastStep s.opcode
  · obtain ⟨u, hu, ht, -⟩ := step_before_last running hl
    rw [h] at hu
    exact .inr ⟨hl, Host.Outcome.next.inj hu ▸ ht⟩
  · exact .inl (step_t_of_last running h (Nat.not_lt.1 hl))

/-- The counter reaches `k + 1` only from `k`, before the last step of the row. -/
theorem step_t_pred {s s' : State} (running : s.halted = false) (h : step s = .next s') {k : Nat}
    (ht : s'.t.toNat = k + 1) : s.t.toNat = k ∧ k < lastStep s.opcode := by
  obtain zero | ⟨before, count⟩ := step_t_cases running h
  · rw [zero] at ht
    exact absurd ht.symm (Nat.succ_ne_zero k)
  · omega

/-! ### The invariant of 10_state.md section 8 -/

/-- A running machine's step meets the invariant of 10_state.md section 8, whatever was before. -/
theorem step_inv_of_running {s s' : State} (running : s.halted = false) (h : step s = .next s') :
    s'.Inv := by
  have ir_kept {t : MicroStep} (ht : s.t = t) (ne : t ≠ 1) : s'.opcode = s.opcode :=
    congrArg highNibble (step_ir_kept running h (ht ▸ ne))
  refine ⟨Nat.le_of_lt_succ s'.pc.isLt, Nat.le_of_lt_succ s'.mar.isLt, ?bound, fun ht => ?step3,
    fun ht => ?step4, fun halts => ?halted⟩
  case bound =>
    have le := lastStep_le_four s.opcode
    obtain zero | ⟨before, count⟩ := step_t_cases running h
    · rw [zero]; exact Nat.zero_le 4
    · omega
  case step3 =>
    obtain ⟨two, more⟩ := step_t_pred (k := 2) running h (by rw [ht]; rfl)
    rw [ir_kept (BitVec.eq_of_toNat_eq (y := 2) two) (by decide)]
    exact opcode_of_step3 more
  case step4 =>
    obtain ⟨three, more⟩ := step_t_pred (k := 3) running h (by rw [ht]; rfl)
    rw [ir_kept (BitVec.eq_of_toNat_eq (y := 3) three) (by decide)]
    exact opcode_of_step4 more
  case halted =>
    obtain ⟨hop, ht⟩ := step_halts running h halts
    have last : lastStep s.opcode ≤ s.t.toNat := by rw [hop, ht]; decide
    exact ⟨(ir_kept ht (by decide)).trans hop, step_t_of_last running h last⟩

/-- Settles O36. Either the machine was running, or it was halted and keeps its state. -/
theorem stepKeepsStateInvariant : Obligations.StepKeepsStateInvariant := by
  intro s s' inv h
  cases hh : s.halted
  · exact step_inv_of_running hh h
  · rw [step_of_halted hh] at h
    exact Host.Outcome.next.inj h ▸ inv

/-! ### Where the fetch stands -/

/-- Settles O38. The counter is 1 only after fetch step 0, 2 only after fetch step 1, and the machine
halts only at step 2 of HLT, which changes nothing else. -/
theorem stepKeepsFetchInvariant : Obligations.StepKeepsFetchInvariant := by
  intro s s' inv h
  cases hh : s.halted
  case true =>
    rw [step_of_halted hh] at h
    exact Host.Outcome.next.inj h ▸ inv
  case false =>
    obtain ⟨before, after⟩ := inv
    have answers {u : State} (hu : exec (decodeByte s.ir) s = .next u) : s' = u :=
      Host.Outcome.next.inj (h.symm.trans ((step_of_decoded hh).trans hu))
    refine ⟨fun ht => ?fetch0, fun past => past.elim (fun ht => ?fetch1) (fun halts => ?halt)⟩
    case fetch0 =>
      obtain ⟨zero, -⟩ := step_t_pred (k := 0) hh h (by rw [ht]; rfl)
      rw [answers (exec_fetch_step0 (BitVec.eq_of_toNat_eq (y := 0) zero))]
    case fetch1 =>
      obtain ⟨one, -⟩ := step_t_pred (k := 1) hh h (by rw [ht]; rfl)
      have one : s.t = 1 := BitVec.eq_of_toNat_eq (y := 1) one
      rw [answers (exec_fetch_step1 one), before one]
      exact ⟨rfl, rfl⟩
    case halt =>
      obtain ⟨hop, ht⟩ := step_halts hh h halts
      have hlt := step_of_exec hh (exec_hlt_step2 ht) hop rfl
      rw [Host.Outcome.next.inj (h.symm.trans hlt)]
      exact after (.inl ht)

/-! ### From the reset -/

theorem resetWith_inv (image : Image) : (State.resetWith image).Inv :=
  have inv : State.reset.Inv := by decide
  inv

theorem resetWith_fetchInv (image : Image) : (State.resetWith image).FetchInv := by
  simp [State.FetchInv]

/-- What holds after every reset and is kept by every step holds of every reachable state. -/
theorem reachable_of_kept {P : State → Prop} (reset : ∀ image, P (State.resetWith image))
    (keeps : ∀ s s', P s → step s = .next s' → P s') {s : State} : s.Reachable → P s
  | ⟨image, k, h⟩ => run_keeps keeps k _ s (reset image) h

/-- Settles O37. The reset meets the invariant whatever the image, since it does not read memory. -/
theorem reachableStatesMeetInvariant : Obligations.ReachableStatesMeetInvariant := fun _ =>
  reachable_of_kept resetWith_inv stepKeepsStateInvariant

/-- Settles O39. A halted state that meets both invariants is such an end. -/
theorem endOfRun : Obligations.EndOfRun := by
  intro s reach halts
  obtain ⟨-, -, -, -, -, inv⟩ := reachableStatesMeetInvariant s reach
  obtain ⟨-, fetched⟩ := reachable_of_kept resetWith_fetchInv stepKeepsFetchInvariant reach
  obtain ⟨hop, ht⟩ := inv halts
  obtain ⟨hpc, hir⟩ := fetched (.inr halts)
  have dec : decodeByte s.ir = .hlt := by rw [decodeByte, show highNibble s.ir = 15 from hop]; rfl
  exact ⟨ht, dec, hir, by rw [hpc, nibble_succ_toNat]⟩

end Sys2Proof.Machine
end

section
/-! SUPPORT. The transfer stage on any control word (spec/41_transfer_bus.md R85 to R99) and the micro-step
as decode, drive, latch, report (spec/44_cycle_driver.md R115, R120). -/

namespace Sys2Proof.Machine

/-! ### Drive and latch under a well-formed word -/

/-- A driven latch takes what its element takes of the bus, or keeps its own (R85). -/
theorem latched_map_bus {α : Type} {signal : Bool} {bus : Option Byte}
    (driven : signal = true → ∃ v, bus = some v) (old : α) (f : Byte → α) :
    if signal then some (latched signal bus old f) = bus.map f else latched signal bus old f = old := by
  cases signal
  · exact latched_false ..
  · obtain ⟨v, rfl⟩ := driven rfl
    rfl

/-- A driven 8-bit latch takes the bus or keeps its own. -/
theorem latched_bus {signal : Bool} {bus : Option Byte} (driven : signal = true → ∃ v, bus = some v)
    (old : Byte) :
    if signal then some (latched signal bus old id) = bus else latched signal bus old id = old := by
  simpa only [Option.map_id_fun, id_eq] using latched_map_bus driven old id

/-- A driven 4-bit latch takes the low four bits of the bus or keeps its own (R88). -/
theorem latched_low_bus {signal : Bool} {bus : Option Byte} (driven : signal = true → ∃ v, bus = some v)
    (old : Nibble) :
    if signal then some (latched signal bus old addressFromBus) = bus.map (fun v => v.setWidth 4)
    else latched signal bus old addressFromBus = old := by
  simpa only [addressFromBus_eq_setWidth, funext addressFromBus_eq_setWidth] using
    latched_map_bus driven old addressFromBus

/-- A driven RAM-in writes the bus to the cell pre-step `MAR` selects, and memory is kept without it. -/
theorem latch_mem_bus {cw : ControlWord} {bus : Option Byte}
    (driven : cw.asserts .ri = true → ∃ v, bus = some v) (last : Bool) (s : State) :
    if cw.asserts .ri then
      ∃ v, bus = some v ∧ ∀ x : Nibble, (latch cw bus last s).mem.read x.toNat =
        if x = s.mar then v else s.mem.read x.toNat
    else (latch cw bus last s).mem = s.mem := by
  cases ri : cw.asserts .ri
  · exact latch_mem_of_ri_off ri ..
  · obtain ⟨v, rfl⟩ := driven ri
    refine ⟨v, rfl, fun x => ?_⟩
    rw [latch_mem, ri, latched_true, read_write_nibbles]

/-- A driven Jump takes the low four bits of the bus; else PC-enable increments modulo 16. -/
theorem latch_pc_bus {cw : ControlWord} {bus : Option Byte}
    (driven : cw.asserts .jp = true → ∃ v, bus = some v) (last : Bool) (s : State) :
    if cw.asserts .jp then some (latch cw bus last s).pc = bus.map (fun v => v.setWidth 4)
    else if cw.asserts .ce then (latch cw bus last s).pc.toNat = (s.pc.toNat + 1) % 16
    else (latch cw bus last s).pc = s.pc := by
  cases jp : cw.asserts .jp
  · cases ce : cw.asserts .ce
    · exact nextPc_of_off _ _ jp ce
    · exact (congrArg BitVec.toNat (nextPc_of_ce _ _ jp ce)).trans (nibble_succ_toNat _)
  · obtain ⟨v, rfl⟩ := driven jp
    exact congrArg some ((nextPc_of_jp _ jp v).trans (addressFromBus_eq_setWidth v))

/-- ALU-out with Flags-in writes both flags from the one ALU operation; else both are kept (R109). -/
theorem latch_flags (cw : ControlWord) (bus : Option Byte) (last : Bool) (s : State) :
    if cw.asserts .eo && cw.asserts .fi then
      (latch cw bus last s).cf = aluCarry s.a s.b (cw.asserts .su) ∧
      (latch cw bus last s).zf = aluZero s.a s.b (cw.asserts .su)
    else (latch cw bus last s).cf = s.cf ∧ (latch cw bus last s).zf = s.zf := by
  cases written : cw.asserts .eo && cw.asserts .fi
  · exact latch_flags_kept written ..
  · exact latch_flags_written written ..

/-- Settles O51. A well-formed word has one driver, whose value the bus has, and a driver wherever it has
a bus latch. -/
theorem transferLatchesTheBus : Obligations.TransferLatchesTheBus := by
  intro m s wf
  have driven {l : Signal} (hl : l ∈ [Signal.mi, .ri, .ii, .ai, .bi, .oi, .jp])
      (on : m.word.asserts l = true) : ∃ v, busValue s.operand m.word s = some v :=
    busValue_of_latch wf _ s (mem_busLatches.2 ⟨hl, on⟩)
  exact ⟨busValue_co _ s, busValue_ro wf _ s, busValue_operand s wf, busValue_ao wf _ s,
    busValue_eo wf _ s, busValue_of_no_driver _ s, _, microStep_of_wellFormed wf _ s,
    latched_low_bus (driven (by simp)) _, latch_mem_bus (driven (by simp)) _ s,
    latched_bus (driven (by simp)) _, latched_bus (driven (by simp)) _,
    latched_bus (driven (by simp)) _, latched_bus (driven (by simp)) _,
    latch_pc_bus (driven (by simp)) _ s⟩

/-- A running machine's micro-step is the transfer stage on the word its decoder gives. -/
theorem step_eq_transfer {s : State} (running : s.halted = false) : step s = transfer s.microOp s :=
  (step_of_running running).trans (microStep_of_wellFormed (rom_wellFormed ..) _ s).symm

/-- Settles O34. The bus and its latches are those of the transfer stage on the decoder's word; the flags,
`HALTED` and `T` do not take the bus. -/
theorem microStepIsDecodeDriveLatch : Obligations.MicroStepIsDecodeDriveLatch := by
  intro s running
  obtain ⟨co, ro, io, ao, eo, none, s', h, mi, ri, ii, ai, bi, oi, jp⟩ :=
    transferLatchesTheBus s.microOp s (rom_wellFormed ..)
  obtain ⟨-, rfl⟩ := microStep_next h
  refine ⟨_, s.microOp.word, s.microOp.last, busValue s.operand s.microOp.word s,
    (step_eq_transfer running).trans h, rfl, co, ro, io, ao, eo,
    fun hco hro hio hao heo => none (by simp [hco, hro, hio, hao, heo]),
    mi, ri, ii, ai, bi, oi, jp, ?flags, ?halted, rfl, ?report⟩
  case flags => exact latch_flags ..
  case halted => rw [latch_halted, running, Bool.false_or]
  case report => rw [observe, running]; rfl

/-! ### Words that are refused, and words that change nothing -/

/-- Settles O52. Either case contradicts what a well-formed word has: one driver at most, and one where
there is a bus latch. -/
theorem illFormedWordsAreRefused : Obligations.IllFormedWordsAreRefused := by
  intro m s
  refine ⟨fun d hd d' hd' ne on on' => ?twoDrivers, fun l hl on off => ?noDriver⟩
  case twoDrivers =>
    refine microStep_of_illFormed (Bool.eq_false_iff.2 fun wf => ?_) _ s
    exact ne (driver_unique wf (mem_drivers.2 ⟨hd, on⟩) (mem_drivers.2 ⟨hd', on'⟩))
  case noDriver =>
    refine microStep_of_illFormed (Bool.eq_false_iff.2 fun wf => ?_) _ s
    obtain ⟨d, hd⟩ := latch_has_driver wf (mem_busLatches.2 ⟨hl, on⟩)
    obtain ⟨hd, driver⟩ := mem_drivers.1 hd
    exact Bool.false_ne_true ((off d hd).symm.trans driver)

/-- Settles O53. Such a word latches nothing, and does not write the flags. -/
theorem drivingAloneChangesNothing : Obligations.DrivingAloneChangesNothing := by
  intro m s wf no_latch no_flags
  rw [transfer, microStep_of_wellFormed wf, latch_of_no_latch no_latch no_flags, nextMicroStep]

/-! ### The HLT signal -/

section
variable {cw cw' : ControlWord} (agree : ∀ x, x ≠ Signal.hlt → cw'.asserts x = cw.asserts x)
include agree

/-- HLT is neither a driver nor a bus latch, so it has no part in well-formedness (R52). -/
theorem wellFormed_of_agree : cw'.wellFormed = cw.wellFormed := by
  have drivers : cw'.drivers = cw.drivers :=
    List.filter_congr fun x hx => agree x (by rintro rfl; simp at hx)
  have latches : cw'.busLatches = cw.busLatches :=
    List.filter_congr fun x hx => agree x (by rintro rfl; simp at hx)
  rw [ControlWord.wellFormed, drivers, latches, ControlWord.wellFormed]

/-- The bus does not depend on HLT. -/
theorem busValue_of_agree (n : Nibble) (s : State) : busValue n cw' s = busValue n cw s := by
  simp [busValue, agree]

/-- Nothing the latch part writes depends on HLT but `HALTED`. -/
theorem latch_of_agree (off : cw'.asserts .hlt = false) (bus : Option Byte) (last : Bool) (s : State) :
    latch cw' bus last s = { latch cw bus last s with halted := s.halted } := by
  simp [latch, nextPc, nextCarry, nextZero, latchesFlags, agree, off]

end

/-- The mask 0xFFFE keeps every signal but HLT. -/
theorem asserts_clearHlt (cw : ControlWord) (x : Signal) (ne : x ≠ .hlt) :
    ControlWord.asserts (cw &&& 0xFFFE) x = cw.asserts x := by
  have kept : ControlWord.asserts 0xFFFE x = true := by revert ne; cases x <;> decide
  rw [ControlWord.asserts] at kept
  rw [ControlWord.asserts, BitVec.getLsbD_and, kept, Bool.and_true, ControlWord.asserts]

/-- The mask 0xFFFE clears HLT. -/
theorem asserts_hlt_clearHlt (cw : ControlWord) : ControlWord.asserts (cw &&& 0xFFFE) .hlt = false := by
  have cleared : ControlWord.asserts 0xFFFE .hlt = false := by decide
  rw [ControlWord.asserts] at cleared
  rw [ControlWord.asserts, BitVec.getLsbD_and, cleared, Bool.and_false]

/-- Settles O59. The mask takes away the HLT bit only, and the ROM has that bit at step 2 of HLT only. -/
theorem hltSignalOnlyHalts : Obligations.HltSignalOnlyHalts := by
  refine ⟨fun m s wf hlt => ?word, fun op t cf zf hlt => ?rom⟩
  case word =>
    have halts : (latch m.word (busValue s.operand m.word s) m.last s).halted = true := by
      rw [latch_halted, hlt, Bool.or_true]
    have agree := asserts_clearHlt m.word
    have wf' : (⟨m.word &&& 0xFFFE, m.last⟩ : MicroOp).word.wellFormed = true :=
      (wellFormed_of_agree agree).trans wf
    refine ⟨_, microStep_of_wellFormed wf _ s, halts, halts, ?_, run_of_halted halts⟩
    rw [transfer, microStep_of_wellFormed wf', busValue_of_agree agree,
      latch_of_agree agree (asserts_hlt_clearHlt _)]
  case rom =>
    rw [rom_asserts_hlt, decide_eq_true_iff] at hlt
    obtain ⟨rfl, rfl⟩ := hlt
    rw [rom_hlt_step2]

end Sys2Proof.Machine
end

section
/-! SUPPORT. The step and the decoder as a whole: no step is refused, a halted machine stays, a running one
runs the decoded instruction, and what words the ROM holds (spec/40_microcode_decoder.md R60, R78,
spec/44_cycle_driver.md R117, spec/60_exceptions.md R150). -/

namespace Sys2Proof.Machine

/-- Every step answers a next state. -/
theorem step_total (s : State) : ∃ t, step s = .next t := by
  cases hh : s.halted
  · exact ⟨_, step_of_running hh⟩
  · exact ⟨_, step_of_halted hh⟩

/-- Every run is safe. -/
theorem run_total : ∀ (k : Nat) (s : State), SafeRun k s
  | 0, s => ⟨s, rfl⟩
  | k + 1, s => by
    obtain ⟨t, ht⟩ := step_total s
    rw [SafeRun, run_succ_of_next ht]
    exact run_total k t

/-- Settles O33. The words of the ROM are well formed, so every instruction latches. -/
theorem nothingFaultsOrIsRefused : Obligations.NothingFaultsOrIsRefused :=
  ⟨nofun, fun i s => ⟨_, exec_eq_latch i s⟩, step_total, run_total⟩

/-- Settles O35. A pulse without reset is a step or nothing. -/
theorem haltedMachineStaysHalted : Obligations.HaltedMachineStaysHalted := by
  intro s halted
  refine ⟨run_of_halted halted, fun clock => ?_, by rw [observe, if_pos halted]⟩
  cases clock
  · rfl
  · exact step_of_halted halted

/-- A run of one micro-step is the step. -/
theorem run_one (s : State) : run 1 s = step s := by
  obtain ⟨t, ht⟩ := step_total s
  rw [ht]
  exact run_succ_of_next ht 0

/-- Settles O5. The fetch puts the byte in `IR`, and the third micro-step is that of a running machine. -/
theorem stepRunsTheDecodedInstruction : Obligations.StepRunsTheDecodedInstruction := by
  refine ⟨fun s running => step_of_decoded running, fun s i boundary dec => ?_⟩
  have dec : decodeByte (s.mem.read s.pc.toNat) = i := congrArg Prod.fst (Except.ok.inj dec)
  calc run 3 s
    _ = run 1 (s.afterFetch (s.mem.read s.pc.toNat)) := run_fetch boundary rfl 1
    _ = step (s.afterFetch (s.mem.read s.pc.toNat)) := run_one _
    _ = exec (decodeByte (s.mem.read s.pc.toNat)) (s.afterFetch (s.mem.read s.pc.toNat)) :=
      step_of_decoded boundary.1
    _ = exec i (s.afterFetch (s.mem.read s.pc.toNat)) := by rw [dec]

/-- A running machine reports the word its decoder gives. -/
theorem observe_word {s : State} (running : s.halted = false) : (observe s).word = s.microOp.word := by
  rw [observe, running]; rfl

/-- Settles O46. The decoder's answer is the same in both states. -/
theorem decoderReadsOnlyOpcodeCounterFlags : Obligations.DecoderReadsOnlyOpcodeCounterFlags := by
  intro s s' running running' hop ht hcf hzf
  have same : s.microOp = s'.microOp := by rw [State.microOp, hop, ht, hcf, hzf, State.microOp]
  refine ⟨?_, _, _, step_of_running running, step_of_running running', ?_⟩
  · rw [observe_word running, observe_word running', same]
  · rw [latch_t, latch_t, same, ht]

/-! ### The words of the ROM -/

/-- Beyond an opcode's last step the ROM has no signal (R77, D13). -/
theorem rom_beyond_last {op : Nibble} {t : MicroStep} (cf zf : Bool) (h : lastStep op < t.toNat) :
    rom op t cf zf = ⟨0x0000, true⟩ := by
  revert op t cf zf; decide

/-- Settles O45. Each listed word stands at the step of its row; the conflicts are those of signals the
ROM asserts at different steps. -/
theorem romHoldsThirteenWords : Obligations.RomHoldsThirteenWords := by
  refine ⟨fun w => ⟨fun listed => ?listed, ?held⟩, fun op t cf zf => ?conflicts,
    fun op t cf zf => rom_beyond_last cf zf⟩
  case listed =>
    simp only [List.mem_cons, List.not_mem_nil, or_false] at listed
    rcases listed with rfl | rfl | rfl | rfl | rfl | rfl | rfl | rfl | rfl | rfl | rfl | rfl | rfl
    · exact ⟨0, 2, false, false, rfl⟩
    · exact ⟨15, 2, false, false, rfl⟩
    · exact ⟨1, 2, false, false, rfl⟩
    · exact ⟨4, 3, false, false, rfl⟩
    · exact ⟨1, 3, false, false, rfl⟩
    · exact ⟨5, 2, false, false, rfl⟩
    · exact ⟨2, 3, false, false, rfl⟩
    · exact ⟨14, 2, false, false, rfl⟩
    · exact ⟨0, 1, false, false, rfl⟩
    · exact ⟨0, 0, false, false, rfl⟩
    · exact ⟨6, 2, false, false, rfl⟩
    · exact ⟨2, 4, false, false, rfl⟩
    · exact ⟨3, 4, false, false, rfl⟩
  case held =>
    rintro ⟨op, t, cf, zf, rfl⟩
    revert op t cf zf; decide
  case conflicts =>
    refine ⟨rom_wellFormed .., ?_⟩
    revert op t cf zf; decide

end Sys2Proof.Machine
end

section
/-! SUPPORT. The canonical form of memory: kept by every step, and one list for each content
(spec/10_state.md section 2, spec/20_memory.md section 1); and the state reset leaves
(spec/70_reset_and_hazards.md section 1). -/

namespace Sys2Proof.Machine

/-- The latch part keeps the canonical form, whatever the bus. -/
theorem latch_wf {s : State} (h : s.mem.wf) (cw : ControlWord) (bus : Option Byte) (last : Bool) :
    (latch cw bus last s).mem.wf := by
  rw [latch_mem, latched]
  split
  · cases bus with
    | none => exact h
    | some v => exact write_wf h _ v
  · exact h

/-- Settles O40. Memory changes by writes only. -/
theorem stepKeepsMemoryForm : Obligations.StepKeepsMemoryForm := by
  refine fun s wf => ⟨fun s' h => ?_, fun nbits w => write_wf wf _ _⟩
  obtain ⟨-, rfl⟩ | ⟨-, rfl⟩ := step_next h
  · exact wf
  · exact latch_wf wf ..

/-! ### Lookup and membership -/

/-- A listed cell is what its address reads as. -/
theorem lookup_of_mem {m : Memory} (sorted : m.Pairwise (fun c d => c.1 < d.1)) {c : Host.Cell}
    (h : c ∈ m) : Memory.lookup m c.1 = c.2 := by
  induction m with
  | nil => cases h
  | cons d m ih =>
    obtain ⟨below, tl⟩ := List.pairwise_cons.1 sorted
    rcases List.mem_cons.1 h with rfl | h
    · exact if_pos rfl
    · exact (if_neg (below c h).ne).trans (ih tl h)

/-- An address that reads as something else than the unlisted byte is listed. -/
theorem mem_of_lookup {m : Memory} {x : Nat} (h : Memory.lookup m x ≠ Config.unlistedByte) :
    (x, Memory.lookup m x) ∈ m := by
  induction m with
  | nil => exact absurd rfl h
  | cons d m ih =>
    obtain ⟨k, v⟩ := d
    by_cases hk : k = x
    · simp [Memory.lookup, hk]
    · simp only [Memory.lookup, if_neg hk] at h ⊢
      exact List.mem_cons_of_mem _ (ih h)

/-- A canonical memory's cells are listed in every memory that reads the same. -/
theorem subset_of_reads {m m' : Memory} (wf : m.wf)
    (reads : ∀ x : Nibble, m.read x.toNat = m'.read x.toNat) : m ⊆ m' := by
  rintro ⟨k, v⟩ hc
  obtain ⟨small, listed⟩ := wf.2 _ hc
  have hx : (BitVec.ofNat 4 k).toNat % memorySize = k := by
    rw [BitVec.toNat_ofNat, memorySize]; exact (Nat.mod_mod _ _).trans (Nat.mod_eq_of_lt small)
  have same : v = Memory.lookup m' k := by
    have := reads (BitVec.ofNat 4 k)
    rwa [Memory.read, Memory.read, hx, lookup_of_mem wf.1 hc] at this
  subst same
  exact mem_of_lookup listed

/-- Settles O41. The two lists have the same cells, and both are in rising order. -/
theorem equalReadsGiveEqualMemories : Obligations.EqualReadsGiveEqualMemories := by
  intro m m' wf wf' reads
  have nodup {m : Memory} (wf : m.wf) : m.Nodup :=
    wf.1.imp fun {c d} (h : c.1 < d.1) => fun e => h.ne (congrArg Prod.fst e)
  have perm : m.Perm m' := (List.perm_ext_iff_of_nodup (nodup wf) (nodup wf')).2 fun c =>
    ⟨fun hc => subset_of_reads wf reads hc,
      fun hc => subset_of_reads wf' (fun x => (reads x).symm) hc⟩
  exact perm.eq_of_pairwise (fun c d _ _ hcd hdc => absurd hdc hcd.asymm) wf.1 wf'.1

/-! ### Reset -/

/-- Settles O42. A pulse with reset is `State.resetWith`, whatever the clock. -/
theorem resetLeaves : Obligations.ResetLeaves := by
  intro image s clock
  refine ⟨State.resetWith image, rfl, rfl, fun x => read_ofImage image x.val x.isLt, rfl, rfl, rfl, rfl,
    rfl, rfl, rfl, rfl, rfl, rfl, resetWith_inv image, resetWith_fetchInv image, ofImage_wf image, ?_⟩
  rw [State.resetWith, ofImage_blank]
  rfl

end Sys2Proof.Machine
end

section
/-! SUPPORT. What an element reaches: the frame of every instruction (spec/40_microcode_decoder.md section 4)
and the independence from `OUT` (spec/10_state.md section 6), from an ignored low nibble
(spec/30_encoding.md R48) and from the old `B` (spec/46_instr_arithmetic.md). -/

namespace Sys2Proof.Machine

/-! ### The frame -/

/-- An element whose latch signal is not asserted keeps what it held. -/
theorem latched_of_off {α : Type} {signal : Bool} (off : signal = false) (bus : Option Byte) (old : α)
    (f : Byte → α) : latched signal bus old f = old := by
  rw [off, latched_false]

/-- Under any word a cell pre-step `MAR` does not select reads as before (R31). -/
theorem latch_read_other {s : State} {x : Nibble} (other : x ≠ s.mar) (cw : ControlWord)
    (bus : Option Byte) (last : Bool) : (latch cw bus last s).mem.read x.toNat = s.mem.read x.toNat := by
  cases ri : cw.asserts .ri
  · rw [latch_mem_of_ri_off ri]
  · rw [latch_mem, ri]
    cases bus with
    | none => rfl
    | some v => rw [latched_true, read_write_nibbles, if_neg other]

/-- A signal is off where its column of the ROM does not hold. -/
theorem off_of_column {signal : Bool} {p : Prop} [Decidable p] (column : signal = decide p) (h : ¬p) :
    signal = false := column.trans (decide_eq_false h)

/-- Settles O60. Each clause is the column of the ROM for the element's latch signal: outside the steps
the clause leaves open the signal is not asserted. -/
theorem frameOfEveryInstruction : Obligations.FrameOfEveryInstruction := by
  intro i s s' h
  rw [exec_eq_latch] at h
  rw [← Host.Outcome.next.inj h]
  refine ⟨fun x hx => ?mem, fun h1 h2 h5 => ?a, fun h2 h3 => ⟨?b, ?flagsByOpcode⟩, fun h4 => ?flagsByStep,
    fun h1 => ?ir, fun h1 h6 h7 h8 => ?pc, fun h0 h2 => ?marByStep, fun ht h1 h2 h3 h4 => ?marByOpcode,
    fun h14 => ?out, fun h15 => ?halted, fun ht => ?fetch⟩
  case mem =>
    by_cases other : x = s.mar
    · exact congrArg (Memory.read · _)
        (latch_mem_of_ri_off (off_of_column (rom_asserts_ri ..) (by tauto)) ..)
    · exact latch_read_other other ..
  case a => exact latched_of_off (off_of_column (rom_asserts_ai ..) (by tauto)) ..
  case b => exact latched_of_off (off_of_column (rom_asserts_bi ..) (by tauto)) ..
  case flagsByOpcode | flagsByStep =>
    have eo := off_of_column (rom_asserts_eo i.opcode s.t s.cf s.zf) (by tauto)
    exact latch_flags_kept (Bool.and_eq_false_iff.2 (.inl eo)) ..
  case ir => exact latched_of_off (off_of_column (rom_asserts_ii ..) h1) ..
  case pc =>
    exact nextPc_of_off _ _ (off_of_column (rom_asserts_jp ..) (by tauto))
      (off_of_column (rom_asserts_ce ..) h1)
  case marByStep => exact latched_of_off (off_of_column (rom_asserts_mi ..) (by tauto)) ..
  case marByOpcode =>
    have h0 : s.t ≠ 0 := ht ▸ by decide
    exact latched_of_off (off_of_column (rom_asserts_mi ..) (by tauto)) ..
  case out => exact latched_of_off (off_of_column (rom_asserts_oi ..) (by tauto)) ..
  case halted =>
    rw [latch_halted, off_of_column (rom_asserts_hlt ..) (by tauto), Bool.or_false]
  case fetch =>
    have before {t : MicroStep} (two_le : 2 ≤ t.toNat) : s.t ≠ t := by
      rintro rfl
      exact absurd ht (Nat.not_lt.2 two_le)
    have h2 : s.t ≠ 2 := before (by decide)
    have h3 : s.t ≠ 3 := before (by decide)
    have h4 : s.t ≠ 4 := before (by decide)
    refine ⟨latched_of_off (off_of_column (rom_asserts_ai ..) (by tauto)) ..,
      latched_of_off (off_of_column (rom_asserts_bi ..) (by tauto)) ..,
      latched_of_off (off_of_column (rom_asserts_oi ..) (by tauto)) .., ?_⟩
    rw [latch_halted, off_of_column (rom_asserts_hlt ..) (by tauto), Bool.or_false]

/-! ### `OUT` -/

/-- A step reads nothing of `OUT`. -/
theorem step_with_out (s : State) (v : Byte) :
    ∃ t w, step s = .next t ∧ step { s with out := v } = .next { t with out := w } := by
  obtain hh | hh := Bool.eq_false_or_eq_true s.halted
  · exact ⟨s, v, step_of_halted hh, step_of_halted (s := { s with out := v }) hh⟩
  · exact ⟨_, latched (s.microOp.word.asserts .oi) (busValue s.operand s.microOp.word s) v id,
      step_of_running hh, step_of_running (s := { s with out := v }) hh⟩

/-- A run reads nothing of `OUT`. -/
theorem run_with_out : ∀ (k : Nat) (s : State) (v : Byte),
    ∃ t w, run k s = .next t ∧ run k { s with out := v } = .next { t with out := w }
  | 0, s, v => ⟨s, v, rfl, rfl⟩
  | k + 1, s, v => by
    obtain ⟨u, v', hs, hs'⟩ := step_with_out s v
    rw [run_succ_of_next hs, run_succ_of_next hs']
    exact run_with_out k u v'

/-- Settles O57. Neither the decoder nor the bus reads `OUT`, so each step changes at most `OUT` itself. -/
theorem outIsReadByNothing : Obligations.OutIsReadByNothing := by
  intro k s v
  obtain ⟨t, w, h, h'⟩ := run_with_out k s v
  exact ⟨t, _, h, h', rfl⟩

/-! ### The low nibble of an instruction without operand -/

/-- Without Instruction-out the bus depends neither on `IR` nor on the operand. -/
theorem busValue_with_ir {cw : ControlWord} (io : cw.asserts .io = false) (n n' : Nibble) (s : State)
    (b : Byte) : busValue n' cw { s with ir := b } = busValue n cw s := by
  simp only [busValue, io, Bool.false_eq_true, if_false]

/-- The rows without operand have no Instruction-out. -/
theorem rom_io_off {op : Nibble} (h : op = 0 ∨ 9 ≤ op.toNat) (t : MicroStep) (cf zf : Bool) :
    (rom op t cf zf).word.asserts .io = false := by
  revert op t cf zf; decide

/-- The rows of the table without operand do not depend on the low nibble. -/
theorem decodeFields_no_operand {op : Nibble} (h : op = 0 ∨ 9 ≤ op.toNat) (n : Nibble) :
    decodeFields op n = decodeFields op 0 := by
  revert op n; decide

/-- Where the opcode takes no operand, a step reads nothing of `IR` but the opcode. -/
theorem step_with_ir {s : State} {b : Byte} (same : highNibble b = s.opcode)
    (h : s.opcode = 0 ∨ 9 ≤ s.opcode.toNat) :
    ∃ t w, step s = .next t ∧ step { s with ir := b } = .next { t with ir := w } := by
  obtain hh | hh := Bool.eq_false_or_eq_true s.halted
  · exact ⟨s, b, step_of_halted hh, step_of_halted (s := { s with ir := b }) hh⟩
  · have op : ({ s with ir := b } : State).microOp = s.microOp := by
      rw [State.microOp, State.opcode, same]; rfl
    have io : s.microOp.word.asserts .io = false := rom_io_off h ..
    refine ⟨_, latched (s.microOp.word.asserts .ii) (busValue s.operand s.microOp.word s) b id,
      step_of_running hh, (step_of_running (s := { s with ir := b }) hh).trans ?_⟩
    rw [op, busValue_with_ir io s.operand]
    rfl

/-- Settles O3. The two bytes have one opcode, whose row does not drive the low nibble. -/
theorem ignoredLowNibbleReachesNothing : Obligations.IgnoredLowNibbleReachesNothing := by
  intro op n n' s h
  have opcode (n : Nibble) : highNibble (joinNibbles op n) = op := highNibble_joinNibbles op n
  refine ⟨?decode, ?step⟩
  case decode =>
    rw [decodeByte_joinNibbles, decodeByte_joinNibbles, decodeFields_no_operand h n,
      decodeFields_no_operand h n']
  case step =>
    obtain ⟨t, w, ht, ht'⟩ := step_with_ir (s := { s with ir := joinNibbles op n })
      ((opcode n').trans (opcode n).symm) (by rwa [State.opcode, opcode])
    exact ⟨t, _, ht, ht', rfl⟩

/-! ### `B` across an instruction -/

/-- A byte is its two nibbles joined (R45). -/
theorem joinNibbles_high_low (b : Byte) : joinNibbles (highNibble b) (lowNibble b) = b := by
  revert b; decide

/-- Without ALU-out the bus does not depend on `B`. -/
theorem busValue_with_b {cw : ControlWord} (eo : cw.asserts .eo = false) (n : Nibble) (s : State)
    (v : Byte) : busValue n cw { s with b := v } = busValue n cw s := by
  simp only [busValue, eo, Bool.false_eq_true, if_false]

/-- Without ALU-out the latch part reads nothing of `B`. -/
theorem latch_with_b {cw : ControlWord} (eo : cw.asserts .eo = false) (bus : Option Byte) (last : Bool)
    (s : State) (v : Byte) : latch cw bus last { s with b := v } =
      { latch cw bus last s with b := latched (cw.asserts .bi) bus v id } := by
  have no_flags : latchesFlags cw = false := Bool.and_eq_false_iff.2 (.inl eo)
  simp [latch, nextCarry, nextZero, no_flags]

/-- Every step but step 4 of ADD and SUB reads nothing of `B`. -/
theorem step_with_b {s : State} (other : ¬((s.opcode = 2 ∨ s.opcode = 3) ∧ s.t = 4)) (v : Byte) :
    ∃ t w, step s = .next t ∧ step { s with b := v } = .next { t with b := w } := by
  obtain hh | hh := Bool.eq_false_or_eq_true s.halted
  · exact ⟨s, v, step_of_halted hh, step_of_halted (s := { s with b := v }) hh⟩
  · have eo : s.microOp.word.asserts .eo = false := by
      rw [State.microOp, rom_asserts_eo, decide_eq_false other]
    refine ⟨_, latched (s.microOp.word.asserts .bi) (busValue s.operand s.microOp.word s) v id,
      step_of_running hh, (step_of_running (s := { s with b := v }) hh).trans ?_⟩
    exact congrArg _ ((congrArg (latch _ · _ _) (busValue_with_b eo ..)).trans (latch_with_b eo ..))

/-- Up to step 4 an instruction reads nothing of the `B` of its boundary. -/
theorem run_with_b {s : State} {op n : Nibble} (boundary : s.AtBoundary)
    (cell : s.mem.read s.pc.toNat = joinNibbles op n) (v : Byte) :
    ∀ k, k ≤ lastStep op + 1 → k ≤ 4 →
      ∃ t w, run k s = .next t ∧ run k { s with b := v } = .next { t with b := w }
  | 0, _, _ => ⟨s, v, rfl, rfl⟩
  | k + 1, hk, hk4 => by
    obtain ⟨u, w, hu, hu'⟩ := run_with_b boundary cell v k (by omega) (by omega)
    obtain ⟨u₁, hu₁, count, -⟩ := run_within_instruction boundary cell k (by omega)
    obtain rfl : u₁ = u := Host.Outcome.next.inj (hu₁.symm.trans hu)
    have before4 : u₁.t ≠ 4 := fun ht => by
      rw [ht] at count
      exact absurd count (by change 4 ≠ k; omega)
    obtain ⟨t, w', ht, ht'⟩ := step_with_b (fun at4 => before4 at4.2) w
    exact ⟨t, w', run_step_end hu ht, run_step_end hu' ht'⟩

/-- Whatever `B` held at its boundary, an instruction leaves the same but for `B`: only ADD and SUB have a
step 4, and they loaded `B` from memory at step 3. -/
theorem run_instruction_with_b {s : State} {op n : Nibble} (boundary : s.AtBoundary)
    (cell : s.mem.read s.pc.toNat = joinNibbles op n) (v : Byte) :
    ∃ t w, run (lastStep op + 1) s = .next t ∧
      run (lastStep op + 1) { s with b := v } = .next { t with b := w } := by
  by_cases short : lastStep op ≤ 3
  · exact run_with_b boundary cell v _ le_rfl (by omega)
  · obtain rfl | rfl := opcode_of_step4 (Nat.lt_of_not_le short)
    · exact ⟨_, _, addInstruction s n _ boundary cell rfl,
        addInstruction { s with b := v } n _ boundary cell rfl⟩
    · exact ⟨_, _, subInstruction s n _ boundary cell rfl,
        subInstruction { s with b := v } n _ boundary cell rfl⟩

/-- Settles O58. Both instructions run to the end of the same row. -/
theorem bIsInvisibleAcrossInstructions : Obligations.BIsInvisibleAcrossInstructions := by
  intro s v boundary
  have cell := (joinNibbles_high_low (s.mem.read s.pc.toNat)).symm
  obtain ⟨t, w, h, h'⟩ := run_instruction_with_b boundary cell v
  obtain ⟨u, hu, zero⟩ := run_whole_instruction boundary cell
  obtain rfl : u = t := Host.Outcome.next.inj (hu.symm.trans h)
  exact ⟨u, _, instruction_eq_run boundary cell h zero,
    instruction_eq_run (s := { s with b := v }) boundary cell h' zero, rfl⟩

/-! ### A store and the next fetch -/

/-- Settles O56. The store ends at a boundary with `PC` at the stored cell, which the fetch reads. -/
theorem storeIsSeenByTheNextFetch : Obligations.StoreIsSeenByTheNextFetch := by
  intro s boundary cell
  obtain ⟨mem', stored, reads⟩ := staInstruction s (s.pc + 1) boundary cell
  refine ⟨_, (run_add stored 2).trans (fetchOfEveryInstruction _ boundary), ?_, rfl, rfl⟩
  exact (reads (s.pc + 1)).trans (if_pos rfl)

end Sys2Proof.Machine
end
